-- ==== Sys2Proof/Word.lean ====
section
/-! DEFINITION. The words the block moves (spec 00 R8, 30 R62, R68). Index arithmetic is in Machine/Ops.lean. -/

namespace Sys2Proof

/-- One slot, one datum: DATA_W = 8 bits (R8). -/
abbrev Byte := BitVec 8

/-- One cycle's inputs of one FIFO core, `rst pop_req push_req push_data[7:0]` (R62). -/
abbrev CmdWord := BitVec 11

/-- One cycle's line inputs of a Byte Pump, `tx_ready rx_ready rx_data[7:0]` (R68). -/
abbrev LineWord := BitVec 10

/-- The transform's collaborator state XState (R12, R33).
DESIGN CHOICE (log 11), safe: an opaque type of the spec, held as a number so that states stay plain data; any
countable state is some number, and nothing but the transform reads it. -/
abbrev XState := Nat

end Sys2Proof
end

