-- ==== Sys2Proof/Syntax.lean ====
section
/-! DEFINITION. The commands of the CMD format (spec 30 R64), one constructor per row of spec/opcode_table.json; the
LINE format's fields (R68); one cycle's input ports; the assembler's statements (R69, R70, R72). -/

namespace Sys2Proof

/-- The five commands (R64). The only operand is D = word[7:0] (R63); ignored bits are no operand (R63, R65). -/
inductive Instr where
  | nop
  | push (d : Byte)
  | pop
  | pushpop (d : Byte)
  | reset
deriving DecidableEq, Repr

/-- The fields of a LINE word (R67, R68). It selects no command. -/
structure LineIn where
  txReady : Bool
  rxReady : Bool
  rxData  : Byte
deriving DecidableEq, Repr

/-- The input ports of one cycle. A bare core reads `cmd`; a Channel Pair reads `cmd` for inbound and `cmdOut` for
outbound (R114); a Byte Pump reads `rst` and `line` (R67, R68). A block has no other ports: the fields it does not read
are ignored (log 1). -/
structure Input where
  cmd    : CmdWord := 0
  cmdOut : CmdWord := 0
  rst    : Bool := false
  line   : LineWord := 0
deriving DecidableEq, Repr

/-- `imm8` of R69: a number, or a character literal that stands for its ASCII code (D6). -/
inductive Imm where
  | num (n : Nat)
  | chr (c : Char)
deriving DecidableEq, Repr

/-- The assembler's statements for one FIFO core: the five of R69, the pseudo-instructions of R70 (`rep n body` is
REPEAT, which may nest), and the sequence of lines. -/
inductive Stmt where
  | nop
  | push (i : Imm)
  | pop
  | pushpop (i : Imm)
  | reset
  | pushs (s : List Char)
  | popn (n : Nat)
  | wait (n : Nat)
  | rep (n : Nat) (body : Stmt)
  | skip
  | seq (a b : Stmt)
deriving DecidableEq, Repr

/-- The line stimulus statements for a Byte Pump (R72): CYC with its optional RX byte and TX flag, RESET, IDLE n. -/
inductive LineStmt where
  | cyc (rx : Option Imm) (tx : Bool)
  | reset
  | idle (n : Nat)
deriving DecidableEq, Repr

end Sys2Proof
end

