-- ==== Sys2Proof/WellFormed.lean ====
section
/-! DEFINITION. Well-formedness of the syntax. A command has no reserved or illegal form (spec 30 R65) and its operand's
width is in its type; the checks that can fail are those of the assembler's statements (R69, R70, R72). The checks of a
configuration (R80, R110, R121) are in Machine/Elaborate.lean. -/

namespace Sys2Proof

/-- Every command is well formed: "No word is illegal, reserved, a hint or a custom extension" (R65). -/
def Instr.wf : Instr → Bool
  | .nop => true
  | .push _ => true
  | .pop => true
  | .pushpop _ => true
  | .reset => true

/-- A character that has an ASCII code (R69, D6; log 15). -/
def asciiOk (c : Char) : Bool := decide (c.toNat < 128)

/-- `imm8` is 0..255, or an ASCII character literal (R69). -/
def Imm.wf : Imm → Bool
  | .num n => decide (n < 256)
  | .chr c => asciiOk c

/-- Every immediate in the statement is one (R69, R70). -/
def Stmt.wf : Stmt → Bool
  | .nop => true
  | .push i => i.wf
  | .pop => true
  | .pushpop i => i.wf
  | .reset => true
  | .pushs s => s.all asciiOk
  | .popn _ => true
  | .wait _ => true
  | .rep _ body => body.wf
  | .skip => true
  | .seq a b => a.wf && b.wf

/-- Every immediate in the line statement is one (R72). -/
def LineStmt.wf : LineStmt → Bool
  | .cyc none _ => true
  | .cyc (some i) _ => i.wf
  | .reset => true
  | .idle _ => true

end Sys2Proof
end

