-- ==== Sys2Proof/Decode.lean ====
section
/-! DEFINITION. Decoding and encoding of the CMD format (spec 30 R62 to R65, R71) and of the LINE format (R68). Both
decoders are total on their words; a number too wide to be an input word is rejected by name. -/

namespace Sys2Proof

/-- One row of spec/opcode_table.json (R64). -/
structure OpcodeRow where
  mnemonic : String
  matchTo  : CmdWord
  mask     : CmdWord
deriving DecidableEq, Repr

/-- The table of R64, in its order. -/
def opcodeTable : List OpcodeRow :=
  [ ⟨"NOP", 0x000, 0x700⟩, ⟨"PUSH", 0x100, 0x700⟩, ⟨"POP", 0x200, 0x700⟩, ⟨"PUSHPOP", 0x300, 0x700⟩,
    ⟨"RESET", 0x400, 0x400⟩ ]

/-- "A word w is the command of the row where `(w & mask) == match`" (R64). -/
def OpcodeRow.hits (r : OpcodeRow) (w : CmdWord) : Bool := w &&& r.mask == r.matchTo

/-- The row's name of a command. -/
def Instr.mnemonic : Instr → String
  | .nop => "NOP"
  | .push _ => "PUSH"
  | .pop => "POP"
  | .pushpop _ => "PUSHPOP"
  | .reset => "RESET"

/-- RST, bit 10 of a CMD word (R62). -/
def CmdWord.rstBit (w : CmdWord) : Bool := w.getLsbD 10

/-- POPQ, bit 9 (R62). -/
def CmdWord.popqBit (w : CmdWord) : Bool := w.getLsbD 9

/-- PUSHQ, bit 8 (R62). -/
def CmdWord.pushqBit (w : CmdWord) : Bool := w.getLsbD 8

/-- D, bits 7:0, used unchanged (R62, R63). -/
def CmdWord.dField (w : CmdWord) : Byte := w.extractLsb' 0 8

/-- The decoder: bits 10:8 only, total (R64, R65). -/
def decode (w : CmdWord) : Instr :=
  match CmdWord.rstBit w, CmdWord.popqBit w, CmdWord.pushqBit w with
  | true,  _,     _     => .reset
  | false, false, false => .nop
  | false, false, true  => .push (CmdWord.dField w)
  | false, true,  false => .pop
  | false, true,  true  => .pushpop (CmdWord.dField w)

/-- The encoder: the word with every ignored bit 0 (R69, R71). -/
def encode : Instr → CmdWord
  | .nop => 0b000#3 ++ 0#8
  | .push d => 0b001#3 ++ d
  | .pop => 0b010#3 ++ 0#8
  | .pushpop d => 0b011#3 ++ d
  | .reset => 0b100#3 ++ 0#8

/-- Why a number is no command word. The only reason: a word has 11 bits (R62; log 14). -/
inductive DecodeError where
  | wordTooWide
deriving DecidableEq, Repr

/-- Decoding of a number written as a command word, as the spec's encoded programs list them. -/
def decodeNum (w : Nat) : Except DecodeError Instr :=
  if w < 2 ^ 11 then .ok (decode (BitVec.ofNat 11 w)) else .error .wordTooWide

/-- The host's decoder interface: the instruction of a table word whose bits are numbered as the table numbers them
(bit 0 the least significant bit of the 11-bit word). The one word has no byte order (20 R42). -/
def decodeTableWord (_nbits w : Nat) : Option Instr := (decodeNum w).toOption

/-- The fields of a LINE word: bit 9 tx_ready, bit 8 rx_ready, bits 7:0 rx_data (R68). -/
def decodeLine (w : LineWord) : LineIn :=
  { txReady := w.getLsbD 9, rxReady := w.getLsbD 8, rxData := w.extractLsb' 0 8 }

/-- The LINE word `tx_ready rx_ready rx_data` (R68, R72). -/
def encodeLine (l : LineIn) : LineWord := BitVec.ofBool l.txReady ++ BitVec.ofBool l.rxReady ++ l.rxData

end Sys2Proof
end

