-- ==== Sys2Proof/Config.lean ====
section
/-! DEFINITION. The parameters of the block, fixed at elaboration (spec 00 R7 to R12), and the uninterpreted
application transform. The configuration is a field of State that no step changes, so that a statement about every
state is a statement about every configuration. The elaboration checks R80, R110, R121 are in Machine/Elaborate.lean. -/

namespace Sys2Proof

/-- Which block is elaborated: a FIFO core alone, a Channel Pair whose ports are driven directly (R114), or a Byte
Pump on its Channel Pair (R113). -/
inductive Block where
  | core
  | channelPair
  | bytePump
deriving DecidableEq, Repr

/-- The parameters of one FIFO core: `CAPACITY` C (R7), `IDX_W` W (R9, default 32), `SYNC_STAGES` S (R11, default 0). -/
structure FifoParams where
  cap        : Nat
  idxW       : Nat := 32
  syncStages : Nat := 0
deriving DecidableEq, Repr

/-- `XFORM` (R12): the default echo, a transform that copies its byte n times (the triple of the spec's vectors is
`copies 3`, a transform that swallows every byte `copies 0`), or the application's own transform, uninterpreted.
DESIGN CHOICE (log 11), safe: `app` stands for every transform that meets the bound of R121. -/
inductive Xform where
  | echo
  | copies (n : Nat)
  | app
deriving DecidableEq, Repr

/-- Every parameter of the machine (R7 to R12): the bare core's, the pair's CAP_IN and CAP_OUT with their W and S,
XFORM, XFORM_MAX, XSTATE0 and DROP_W. The defaults of XFORM and DROP_W are the spec's (R12), as are those of W and S (R9,
R11). DESIGN CHOICE (log 2): the spec gives XFORM_MAX (OPEN, at least 1 for echo) and XSTATE0 no default; 1 and 0 are the
model's. -/
structure Config where
  block    : Block
  core     : FifoParams
  inbound  : FifoParams
  outbound : FifoParams
  xform    : Xform := .echo
  xformMax : Nat := 1
  xstate0  : XState := 0
  dropW    : Nat := 16
deriving DecidableEq, Repr

/-- The configuration State.reset starts from.
DESIGN CHOICE (log 2), unsafe only for a statement about State.reset itself: C, the pair's capacities and XFORM_MAX are
OPEN in the spec (R7, R12), XSTATE0 has no value there, and the block is the model's choice; C, the capacities and
XFORM_MAX are those of the spec's programs P1 and P4, XSTATE0 is 0, and W, S, XFORM and DROP_W have the spec's defaults. -/
def Config.default : Config :=
  { block := .core, core := { cap := 4 }, inbound := { cap := 2 }, outbound := { cap := 2 } }

/-- The application transform's next collaborator state: uninterpreted (R12, D21; log 11). -/
opaque Config.appNext : XState → Byte → XState

/-- How many bytes the application transform returns: uninterpreted, at most XFORM_MAX as R121 requires (log 11). -/
opaque Config.appLen (xformMax : Nat) : XState → Byte → Fin (xformMax + 1)

/-- The i-th byte the application transform returns: uninterpreted (R12, D21; log 11). -/
opaque Config.appByte : XState → Byte → Nat → Byte

end Sys2Proof
end

