-- ==== Sys2Proof/Machine/State.lean ====
section
/-! DEFINITION. The state of the machine as plain data: every register spec 10 R20 to R37 names, for the bare FIFO core,
the two cores of a Channel Pair and the Byte Pump; the model's own fields (configuration, stimulus, recorded outputs);
why a step can stop; and the machine right after reset. -/

namespace Sys2Proof.Machine

open Sys2Proof

/-- Why a run stops with a fault. No run from reset reaches either (70 R176; 10 R32). -/
inductive Fault where
  /-- A firing pop read a slot that nothing has written since power-up (10 R22, D30). Raised by POP, PUSHPOP and the
  pump's pops. Safe (log 3). -/
  | unwrittenSlot
  /-- The pump is in EMIT and out_q is empty, so head(out_q) of 42 R123 is undefined. Raised by a pump cycle. Safe
  (log 12). -/
  | emitQueueEmpty
deriving DecidableEq, Repr

/-- Why there is no next state. -/
inductive Refusal where
  /-- An instruction that has no meaning in exec yet: none is left. -/
  | notModelled (mnemonic : String)
  /-- INVALID_CAPACITY: the configuration of a FIFO core fails 40 R80, so no machine exists for it (60 R153). Raised
  by every command and every cycle. Safe (log 13). -/
  | invalidCapacity
  /-- A Byte Pump configuration fails a check of 42 R121 beyond 40 R80: S is not 0, or XFORM exceeds XFORM_MAX. Raised
  by every pump cycle. Safe (log 13). -/
  | pumpConfig
  /-- No input word is left: the run has ended (40 R95), and every input must be driven in every cycle (70 R175). Raised
  by step. Safe (log 1). -/
  | stimulusEnded
deriving DecidableEq, Repr

/-- The storage of one core: written slots only, ascending by slot number. A slot not listed has not been written since
power-up and holds no value (10 R22; log 3). -/
abbrev Memory := List Host.Cell

/-- The state of one FIFO core, `(storage, wr, rd, wsync, rsync)` (10 R20, R22 to R27). Indices are W-bit values held as
numbers below 2^W; every operation on them is W-bit arithmetic (log 9). -/
structure Fifo where
  storage : Memory
  wr      : Nat
  rd      : Nat
  wsync   : List Nat   -- stage 1 first
  rsync   : List Nat   -- stage 1 first
deriving DecidableEq, Repr

/-- `in_st`, the inbound side's state (10 R30). -/
inductive InSt where
  | idle
  | byteAvailable
  | delivered
  | emit
deriving DecidableEq, Repr

/-- `out_st`, the outbound side's state (10 R34). -/
inductive OutSt where
  | idle
  | draining
deriving DecidableEq, Repr

/-- The Byte Pump's registers beside its two cores (10 R20, R30 to R36). -/
structure Pump where
  inSt      : InSt
  rxHold    : Byte
  outQ      : List Byte
  xstate    : XState
  outSt     : OutSt
  txIrqEn   : Bool
  rxDropCnt : Nat
  txDropCnt : Nat
deriving DecidableEq, Repr

/-- Result codes (30 R66, 60 R150). -/
inductive Result where
  | ok
  | full
  | empty
  | invalidCapacity
deriving DecidableEq, Repr

/-- The output ports of one FIFO core in one cycle (30 R60) and the results they stand for (R66); a result is `none`
where its side made no request. `popData` is `none` where pop_ok = 0 (40 R96, D8; log 6). -/
structure PortOut where
  pushOk   : Bool
  popOk    : Bool
  popData  : Option Byte
  count    : Nat
  full     : Bool
  empty    : Bool
  capacity : Nat
  pushRes  : Option Result
  popRes   : Option Result
deriving DecidableEq, Repr

/-- The line outputs of a Byte Pump in one cycle; `txData` is 0x00 where tx_write = 0 (30 R67). -/
structure LineOut where
  rxTake  : Bool
  txWrite : Bool
  txData  : Byte
deriving DecidableEq, Repr

/-- The FIFO cores whose CMD ports a command can drive. -/
inductive CoreSel where
  | single
  | inbound
  | outbound
deriving DecidableEq, Repr

/-- The state. The spec's registers: `core`, `inbound`, `outbound`, `pump`. The model's own fields: `cfg` (log 2), `sel`
(log 8), `stim` (log 1), and the outputs of the last cycle (log 5). -/
structure State where
  cfg         : Config
  core        : Fifo
  inbound     : Fifo
  outbound    : Fifo
  pump        : Pump
  sel         : CoreSel
  stim        : List Input
  coreOut     : PortOut
  inboundOut  : PortOut
  outboundOut : PortOut
  lineOut     : LineOut
deriving DecidableEq, Repr

/-- A core after power-up and one reset cycle: the registers of 10 R37, no slot written (70 R172). -/
def Fifo.fresh (p : FifoParams) : Fifo :=
  { storage := [], wr := 0, rd := 0, wsync := List.replicate p.syncStages 0,
    rsync := List.replicate p.syncStages 0 }

/-- The pump's registers at the reset values of 10 R37. -/
def Pump.fresh (c : Config) : Pump :=
  { inSt := .idle, rxHold := 0x00, outQ := [], xstate := c.xstate0, outSt := .idle, txIrqEn := false,
    rxDropCnt := 0, txDropCnt := 0 }

/-- What is recorded as a core's outputs before its first cycle. DESIGN CHOICE (log 5), unsafe: the reset cycle's outputs
(70 R170), with the status of the fresh buffer of 95 section 1.1. -/
def PortOut.fresh (p : FifoParams) : PortOut :=
  { pushOk := false, popOk := false, popData := none, count := 0, full := false, empty := true, capacity := p.cap,
    pushRes := none, popRes := none }

/-- What is recorded as the line outputs before the first cycle (42 R140; log 5). -/
def LineOut.quiet : LineOut := { rxTake := false, txWrite := false, txData := 0x00 }

/-- The machine of a configuration after power-up and one reset cycle (70 R172), with the given input words to come. -/
def State.fresh (c : Config) (stim : List Input) : State :=
  { cfg := c, core := Fifo.fresh c.core, inbound := Fifo.fresh c.inbound, outbound := Fifo.fresh c.outbound,
    pump := Pump.fresh c, sel := .single, stim := stim, coreOut := PortOut.fresh c.core,
    inboundOut := PortOut.fresh c.inbound, outboundOut := PortOut.fresh c.outbound, lineOut := LineOut.quiet }

/-- The machine right after reset (70 R172, 10 R37), of the default configuration (log 2), with no input word (log 1). -/
def State.reset : State := State.fresh Config.default []

end Sys2Proof.Machine
end

