-- ==== Sys2Proof/Machine/Ops.lean ====
section
/-! DEFINITION. The named operations over storage, indices, views and the cores of a state (spec 20, 40 R81 to R94,
70 R170). The block takes no exception and returns from none (60 R154, R155): there is no such operation here. -/

namespace Sys2Proof

/-- `mask = C - 1` (20 R41). -/
def FifoParams.mask (p : FifoParams) : Nat := p.cap - 1

/-- `CAP_LOG2`, the k with C = 2^k (00 R7). -/
def FifoParams.capLog2 (p : FifoParams) : Nat := Nat.log2 p.cap

/-- `COUNT_W = k + 1` (00 R10). -/
def FifoParams.countW (p : FifoParams) : Nat := p.capLog2 + 1

end Sys2Proof

namespace Sys2Proof.Machine

open Sys2Proof

/-- The byte of a slot, `none` where nothing was written since power-up (10 R22, 00 R15). -/
def Memory.read : Memory → Nat → Option Byte
  | [], _ => none
  | (a, b) :: m, k => if a = k then some b else Memory.read m k

/-- `MemWrite(slot, v)` (00 R15), keeping the slots ascending and listed once. -/
def Memory.write : Memory → Nat → Byte → Memory
  | [], k, v => [(k, v)]
  | (a, b) :: m, k, v =>
    if k < a then (k, v) :: (a, b) :: m
    else if k = a then (k, v) :: m
    else (a, b) :: Memory.write m k v

/-- The canonical form: slots strictly ascending. An unlisted slot holds no value, so no entry can equal it. -/
abbrev Memory.wf (m : Memory) : Prop := m.Pairwise fun x y => x.1 < y.1

/-- `a +_w b`, W-bit unsigned addition (00 R13). -/
def addIdx (w a b : Nat) : Nat := (BitVec.ofNat w a + BitVec.ofNat w b).toNat

/-- `a -_w b`, W-bit unsigned subtraction (00 R13). -/
def subIdx (w a b : Nat) : Nat := (BitVec.ofNat w a - BitVec.ofNat w b).toNat

/-- `sat_inc` of a w-bit counter (42 R133). -/
def satInc (w x : Nat) : Nat := if x = 2 ^ w - 1 then x else x + 1

/-- The slot of an index, `index & (C - 1)` (20 R41); the bits above k-1 of the masked value are 0. -/
def slotOf (p : FifoParams) (index : Nat) : Nat :=
  (BitVec.ofNat p.idxW index &&& BitVec.ofNat p.idxW p.mask).toNat

/-- `wslot` (20 R41, 40 R81). -/
def Fifo.wslot (p : FifoParams) (f : Fifo) : Nat := slotOf p f.wr

/-- `rslot` (20 R41, 40 R81). -/
def Fifo.rslot (p : FifoParams) (f : Fifo) : Nat := slotOf p f.rd

/-- A side's view of the other side's index: the index itself for S = 0, the last pipeline stage for S >= 1 (20 R47). A
pipeline that lacks its last stage does not occur (log 10). -/
def viewOf (p : FifoParams) (index : Nat) (pipe : List Nat) : Nat :=
  if p.syncStages = 0 then index else pipe.getD (p.syncStages - 1) index

/-- `rview`, the producer's view of the read index (20 R47). -/
def Fifo.rview (p : FifoParams) (f : Fifo) : Nat := viewOf p f.rd f.rsync

/-- `wview`, the consumer's view of the write index (20 R47). -/
def Fifo.wview (p : FifoParams) (f : Fifo) : Nat := viewOf p f.wr f.wsync

/-- One shift of a view pipeline: stage 1 takes the pre-edge index, stage i+1 takes stage i (40 R94). -/
def shiftPipe (p : FifoParams) (index : Nat) (pipe : List Nat) : List Nat := (index :: pipe).take p.syncStages

/-- The view pipelines at an edge with rst = 0, whatever the command (40 R94). -/
def Fifo.shiftViews (p : FifoParams) (pre f : Fifo) : Fifo :=
  { f with wsync := shiftPipe p pre.wr pre.wsync, rsync := shiftPipe p pre.rd pre.rsync }

/-- What a firing push does: the byte into its slot and `wr` advanced, at one edge (40 R84, 20 R45). -/
def Fifo.pushByte (p : FifoParams) (pre : Fifo) (d : Byte) (f : Fifo) : Fifo :=
  { f with storage := Memory.write f.storage (pre.wslot p) d, wr := addIdx p.idxW pre.wr 1 }

/-- What a firing pop does to the registers: `rd` advanced (40 R86). -/
def Fifo.popByte (p : FifoParams) (pre : Fifo) (f : Fifo) : Fifo :=
  { f with rd := addIdx p.idxW pre.rd 1 }

/-- Reset of one core: every register to its reset value, storage unchanged (70 R170, 10 R37). -/
def Fifo.resetRegs (p : FifoParams) (f : Fifo) : Fifo :=
  { f with wr := 0, rd := 0, wsync := List.replicate p.syncStages 0, rsync := List.replicate p.syncStages 0 }

/-- The parameters of a core. -/
def paramsOf (c : Config) : CoreSel → FifoParams
  | .single => c.core
  | .inbound => c.inbound
  | .outbound => c.outbound

/-- A core of the state. -/
def State.fifo (s : State) : CoreSel → Fifo
  | .single => s.core
  | .inbound => s.inbound
  | .outbound => s.outbound

/-- The outputs of a core in the last cycle. -/
def State.out (s : State) : CoreSel → PortOut
  | .single => s.coreOut
  | .inbound => s.inboundOut
  | .outbound => s.outboundOut

/-- A core's registers after an edge, and its outputs in the cycle that the edge ended. -/
def State.setFifo (s : State) (k : CoreSel) (f : Fifo) (o : PortOut) : State :=
  match k with
  | .single => { s with core := f, coreOut := o }
  | .inbound => { s with inbound := f, inboundOut := o }
  | .outbound => { s with outbound := f, outboundOut := o }

/-- The next part of a cycle, where the part before it gave a next state. -/
def andThen (r : Host.Outcome State Fault Refusal) (k : State → Host.Outcome State Fault Refusal) :
    Host.Outcome State Fault Refusal :=
  match r with
  | .next s => k s
  | .fault e => .fault e
  | .refused e => .refused e

end Sys2Proof.Machine
end

