-- ==== Sys2Proof/Machine/Operands.lean ====
section
/-! DEFINITION. The input ports of one FIFO core in one cycle, and what each command drives on them (spec 30 R60, R62,
R63). The only operand is D, the byte on push_data. -/

namespace Sys2Proof.Machine

open Sys2Proof

/-- The input ports of one core in one cycle (30 R60). -/
structure Ports where
  rst      : Bool
  popReq   : Bool
  pushReq  : Bool
  pushData : Byte
deriving DecidableEq, Repr

/-- The ports of a command word, bit by bit (30 R62). -/
def Ports.ofWord (w : CmdWord) : Ports :=
  { rst := CmdWord.rstBit w, popReq := CmdWord.popqBit w, pushReq := CmdWord.pushqBit w, pushData := CmdWord.dField w }

/-- NOP requests nothing (40 R82). -/
def Ports.nop : Ports := { rst := false, popReq := false, pushReq := false, pushData := 0 }

/-- PUSH d requests a push of D (40 R84). -/
def Ports.push (d : Byte) : Ports := { rst := false, popReq := false, pushReq := true, pushData := d }

/-- POP requests a pop (40 R86). -/
def Ports.pop : Ports := { rst := false, popReq := true, pushReq := false, pushData := 0 }

/-- PUSHPOP d requests a push of D and a pop (40 R87). -/
def Ports.pushpop (d : Byte) : Ports := { rst := false, popReq := true, pushReq := true, pushData := d }

/-- RESET asserts rst (40 R89). -/
def Ports.reset : Ports := { rst := true, popReq := false, pushReq := false, pushData := 0 }

/-- The ports each command drives. -/
def Ports.ofInstr : Instr → Ports
  | .nop => Ports.nop
  | .push d => Ports.push d
  | .pop => Ports.pop
  | .pushpop d => Ports.pushpop d
  | .reset => Ports.reset

/-- The operand D of a command that has one (30 R63). -/
def operandOf : Instr → Option Byte
  | .nop => none
  | .push d => some d
  | .pop => none
  | .pushpop d => some d
  | .reset => none

end Sys2Proof.Machine
end

