-- ==== Sys2Proof/Machine/Flags.lean ====
section
/-! DEFINITION. The combinational signals of one FIFO core, functions of the pre-edge registers and the cycle's inputs
(spec 40 R81 to R93, 30 R60, R66). No flag is stored (10 R28). -/

namespace Sys2Proof.Machine

open Sys2Proof

/-- `cnt_p`, the producer's count (40 R81). -/
def Fifo.cntP (p : FifoParams) (f : Fifo) : Nat := subIdx p.idxW f.wr (f.rview p)

/-- `cnt_c`, the consumer's count (40 R81). -/
def Fifo.cntC (p : FifoParams) (f : Fifo) : Nat := subIdx p.idxW (f.wview p) f.rd

/-- The occupancy `wr -_W rd` (10 R25, 00 R18). -/
def Fifo.occupancy (p : FifoParams) (f : Fifo) : Nat := subIdx p.idxW f.wr f.rd

/-- `count_o`, the occupancy in COUNT_W bits (40 R90). -/
def Fifo.countO (p : FifoParams) (f : Fifo) : Nat := f.occupancy p % 2 ^ p.countW

/-- `full_o`, the producer's verdict (40 R91). -/
def Fifo.fullO (p : FifoParams) (f : Fifo) : Bool := f.cntP p == p.cap

/-- `empty_o`, the consumer's verdict (40 R92). -/
def Fifo.emptyO (p : FifoParams) (f : Fifo) : Bool := f.cntC p == 0

/-- `capacity_o`, the constant C (40 R93). -/
def FifoParams.capacityO (p : FifoParams) : Nat := p.cap

/-- `push_fire` of a cycle with rst = 0 (40 R83). -/
def Fifo.pushFire (p : FifoParams) (io : Ports) (f : Fifo) : Bool := io.pushReq && !f.fullO p

/-- `pop_fire` of a cycle with rst = 0 (40 R85). -/
def Fifo.popFire (p : FifoParams) (io : Ports) (f : Fifo) : Bool := io.popReq && !f.emptyO p

/-- `push_res`: none without a request, else OK or FULL (30 R66, 60 R159). -/
def pushResult (req fire : Bool) : Option Result :=
  if req then some (if fire then .ok else .full) else none

/-- `pop_res`: none without a request, else OK or EMPTY (30 R66, 60 R159). -/
def popResult (req fire : Bool) : Option Result :=
  if req then some (if fire then .ok else .empty) else none

/-- The outputs of a cycle with rst = 0 whose pop read `data` (30 R60, 40 R84, R86). -/
def Fifo.portOut (p : FifoParams) (io : Ports) (data : Option Byte) (f : Fifo) : PortOut :=
  { pushOk := f.pushFire p io, popOk := f.popFire p io, popData := data, count := f.countO p,
    full := f.fullO p, empty := f.emptyO p, capacity := FifoParams.capacityO p,
    pushRes := pushResult io.pushReq (f.pushFire p io), popRes := popResult io.popReq (f.popFire p io) }

/-- The outputs of a reset cycle: nothing fires, no result, and the status is still the pre-reset one (40 R89). -/
def Fifo.resetOut (p : FifoParams) (f : Fifo) : PortOut :=
  { pushOk := false, popOk := false, popData := none, count := f.countO p, full := f.fullO p, empty := f.emptyO p,
    capacity := FifoParams.capacityO p, pushRes := none, popRes := none }

/-- The 2-bit code of a result (30 R66). -/
def Result.code : Result → BitVec 2
  | .ok => 0b00
  | .full => 0b01
  | .empty => 0b10
  | .invalidCapacity => 0b11

/-- The 2-bit encoding of `in_st` (10 R30). -/
def InSt.code : InSt → BitVec 2
  | .idle => 0b00
  | .byteAvailable => 0b01
  | .delivered => 0b10
  | .emit => 0b11

/-- The 1-bit encoding of `out_st` (10 R34). -/
def OutSt.code : OutSt → BitVec 1
  | .idle => 0
  | .draining => 1

end Sys2Proof.Machine
end

