-- ==== Sys2Proof/Machine/Elaborate.lean ====
section
/-! DEFINITION. Elaboration, the source's `create`: which configurations have a machine (spec 40 R80, 41 R110, 42 R121;
60 R153). -/

namespace Sys2Proof.Machine

open Sys2Proof

/-- The check of one FIFO core: C is not 0, C is a power of two, and W >= log2(C) + 1. S is a natural number by its
type. No rounding (40 R80). -/
def elaborates (p : FifoParams) : Bool :=
  p.cap != 0 && p.cap &&& (p.cap - 1) == 0 && decide (p.capLog2 + 1 ≤ p.idxW)

/-- XFORM returns at most XFORM_MAX bytes for every state and byte (42 R121). The application's own transform has that
bound by its type (log 11). -/
def xformFits (xformMax : Nat) : Xform → Bool
  | .echo => decide (1 ≤ xformMax)
  | .copies n => decide (n ≤ xformMax)
  | .app => true

/-- The pump's checks beyond 40 R80: S = 0 on both cores, and the bound on XFORM (42 R121). -/
def pumpChecks (c : Config) : Bool :=
  c.inbound.syncStages == 0 && c.outbound.syncStages == 0 && xformFits c.xformMax c.xform

/-- Why a configuration has no machine, if it has none: its core, either core of its pair (41 R110), or its pump. -/
def configRefusal (c : Config) : Option Refusal :=
  match c.block with
  | .core => if elaborates c.core then none else some .invalidCapacity
  | .channelPair =>
    if elaborates c.inbound && elaborates c.outbound then none else some .invalidCapacity
  | .bytePump =>
    if elaborates c.inbound && elaborates c.outbound then
      (if pumpChecks c then none else some .pumpConfig)
    else some .invalidCapacity

/-- `create(capacity)` of one FIFO core: the fresh core, or the result INVALID_CAPACITY (40 R80, 60 R153). -/
def createFifo (p : FifoParams) : Except Result Fifo :=
  if elaborates p then .ok (Fifo.fresh p) else .error .invalidCapacity

/-- Elaboration of a whole configuration: the machine after its first reset cycle (70 R172, R175), or the refusal. -/
def create (c : Config) (stim : List Input) : Except Refusal State :=
  match configRefusal c with
  | none => .ok (State.fresh c stim)
  | some r => .error r

end Sys2Proof.Machine
end

