-- ==== Sys2Proof/Machine/FifoCommands.lean ====
section
/-! DEFINITION. One clock cycle of one FIFO core (spec 40 R81 to R94, 70 R170), and the meanings of the five commands over
it. -/

namespace Sys2Proof.Machine

open Sys2Proof

/-- `pop_data` of a cycle with rst = 0: the byte a firing pop reads from the pre-edge storage, `none` where no pop fires;
a slot nothing has written faults (40 R86, R96; 10 R22). -/
def Fifo.popData (p : FifoParams) (io : Ports) (f : Fifo) : Except Fault (Option Byte) :=
  if f.popFire p io then
    match Memory.read f.storage (f.rslot p) with
    | some b => .ok (some b)
    | none => .error .unwrittenSlot
  else .ok none

/-- The registers after an edge with rst = 0: the push half, the pop half and the view pipelines, all from the pre-edge
state (40 R84, R86, R87, R94; 00 R14). -/
def Fifo.edge (p : FifoParams) (io : Ports) (f : Fifo) : Fifo :=
  let pushed := if f.pushFire p io then f.pushByte p io.pushData f else f
  let popped := if f.popFire p io then f.popByte p pushed else pushed
  f.shiftViews p popped

/-- One clock cycle of one core: its registers after the edge and its outputs in the cycle. `rst` overrides every
request (60 R158, 70 R170). -/
def Fifo.cycle (p : FifoParams) (io : Ports) (f : Fifo) : Except Fault (Fifo × PortOut) :=
  if io.rst then .ok (f.resetRegs p, f.resetOut p)
  else
    match f.popData p io with
    | .ok data => .ok (f.edge p io, f.portOut p io data)
    | .error r => .error r

/-- A command on the core the state selects: refused where that core's configuration has no machine (40 R80), else one
cycle with the ports the command drives. -/
def State.command (io : Ports) (s : State) : Host.Outcome State Fault Refusal :=
  if elaborates (paramsOf s.cfg s.sel) then
    match (s.fifo s.sel).cycle (paramsOf s.cfg s.sel) io with
    | .ok (f, o) => .next (s.setFifo s.sel f o)
    | .error r => .fault r
  else .refused .invalidCapacity

/-- NOP (40 R82). -/
def execNop (s : State) : Host.Outcome State Fault Refusal := s.command Ports.nop

/-- PUSH d (40 R84). -/
def execPush (d : Byte) (s : State) : Host.Outcome State Fault Refusal := s.command (Ports.push d)

/-- POP (40 R86). -/
def execPop (s : State) : Host.Outcome State Fault Refusal := s.command Ports.pop

/-- PUSHPOP d (40 R87). -/
def execPushpop (d : Byte) (s : State) : Host.Outcome State Fault Refusal := s.command (Ports.pushpop d)

/-- RESET (40 R89, 70 R170). -/
def execReset (s : State) : Host.Outcome State Fault Refusal := s.command Ports.reset

end Sys2Proof.Machine
end

