-- ==== Sys2Proof/Machine/Dispatch.lean ====
section
/-! DEFINITION. One arm per command (spec 30 R64): the command's cycle of the core the state selects. -/

namespace Sys2Proof.Machine

open Sys2Proof

def exec (i : Instr) (s : State) : Host.Outcome State Fault Refusal :=
  match i with
  | .nop => Sys2Proof.Machine.execNop s
  | .push d => Sys2Proof.Machine.execPush d s
  | .pop => Sys2Proof.Machine.execPop s
  | .pushpop d => Sys2Proof.Machine.execPushpop d s
  | .reset => Sys2Proof.Machine.execReset s

end Sys2Proof.Machine
end

