-- ==== Sys2Proof/Machine/Pump.lean ====
section
/-! DEFINITION. One clock cycle of the Byte Pump (spec 42): the ports it drives on its two cores, its two sides, its
reset. -/

namespace Sys2Proof.Machine

open Sys2Proof

/-- `XFORM(s, b)` (00 R12): echo, n copies, or the application's uninterpreted transform (log 11). -/
def applyXform (c : Config) (xs : XState) (b : Byte) : XState × List Byte :=
  match c.xform with
  | .echo => (xs, [b])
  | .copies n => (xs, List.replicate n b)
  | .app =>
    (Config.appNext xs b, (List.range (Config.appLen c.xformMax xs b).val).map (Config.appByte xs b))

/-- `tx_trig`: the transmit-ready interrupt fires (42 R122). -/
def Pump.txTrig (l : LineIn) (q : Pump) : Bool := q.txIrqEn && l.txReady

/-- `rx_take`: read one ready byte (42 R122). -/
def Pump.rxTake (l : LineIn) (q : Pump) : Bool := decide (q.inSt = .idle) && l.rxReady

/-- The ports driven on inbound (42 R123). -/
def Pump.inPorts (q : Pump) : Ports :=
  { rst := false, popReq := decide (q.inSt = .delivered), pushReq := decide (q.inSt = .byteAvailable),
    pushData := q.rxHold }

/-- The ports driven on outbound (42 R123). Outside EMIT push_req = 0 and push_data is ignored (40 R97); `pumpCycle`
faults before an EMIT with no head is reached (log 12). -/
def Pump.outPorts (l : LineIn) (outEmpty : Bool) (q : Pump) : Ports :=
  { rst := false, popReq := q.txTrig l && !outEmpty, pushReq := decide (q.inSt = .emit),
    pushData := q.outQ.headD 0 }

/-- Inbound IDLE (42 R124). -/
def Pump.idleStep (l : LineIn) (q : Pump) : Pump :=
  if l.rxReady then { q with rxHold := l.rxData, inSt := .byteAvailable } else { q with inSt := .idle }

/-- Inbound BYTE_AVAILABLE: a refused push drops the byte and counts it (42 R125, R133). -/
def Pump.byteAvailableStep (c : Config) (oi : PortOut) (q : Pump) : Pump :=
  { q with rxDropCnt := if oi.pushOk then q.rxDropCnt else satInc c.dropW q.rxDropCnt, inSt := .delivered }

/-- Inbound DELIVERED: the popped byte goes through the transform (42 R126). -/
def Pump.deliveredStep (c : Config) (oi : PortOut) (q : Pump) : Pump :=
  match oi.popData with
  | some b =>
    let r := applyXform c q.xstate b
    if r.2 = [] then { q with xstate := r.1, inSt := .idle }
    else { q with xstate := r.1, outQ := r.2, inSt := .emit }
  | none => { q with inSt := .idle }

/-- Inbound EMIT: one byte per cycle; a refused push drops it and counts it (42 R127, R133). -/
def Pump.emitStep (c : Config) (oo : PortOut) (q : Pump) : Pump :=
  { q with
    txDropCnt := if oo.pushOk then q.txDropCnt else satInc c.dropW q.txDropCnt
    outQ := q.outQ.tail
    inSt := if q.outQ.tail = [] then .idle else .emit }

/-- The inbound side's edge (42 R124 to R127). -/
def Pump.inboundSide (c : Config) (l : LineIn) (oi oo : PortOut) (q : Pump) : Pump :=
  match q.inSt with
  | .idle => q.idleStep l
  | .byteAvailable => q.byteAvailableStep c oi
  | .delivered => q.deliveredStep c oi
  | .emit => q.emitStep c oo

/-- `set_en` (42 R122). -/
def Pump.setEn (oo : PortOut) (q : Pump) : Bool := decide (q.inSt = .emit) && oo.pushOk

/-- `clear_en` (42 R122). -/
def Pump.clearEn (l : LineIn) (outEmpty : Bool) (q : Pump) : Bool := q.txTrig l && outEmpty

/-- `out_st` after the edge (42 R128). -/
def Pump.outStNext (l : LineIn) (outEmpty : Bool) (q : Pump) : OutSt :=
  if q.txTrig l && !outEmpty then .draining else .idle

/-- `tx_irq_en` after the edge: set wins over clear (42 R132). -/
def Pump.txIrqNext (l : LineIn) (outEmpty : Bool) (oo : PortOut) (q : Pump) : Bool :=
  q.setEn oo || (q.txIrqEn && !q.clearEn l outEmpty)

/-- The pump's registers after an edge with rst = 0: each register has one writer, the inbound side or the drainer, and
both read the pre-edge state (42 R120). -/
def Pump.edge (c : Config) (l : LineIn) (outEmpty : Bool) (oi oo : PortOut) (q : Pump) : Pump :=
  { q.inboundSide c l oi oo with outSt := q.outStNext l outEmpty, txIrqEn := q.txIrqNext l outEmpty oo }

/-- The line outputs of a cycle with rst = 0; tx_data is the popped byte, 0x00 when tx_write = 0 (42 R122). -/
def Pump.lineOut (l : LineIn) (oo : PortOut) (q : Pump) : LineOut :=
  { rxTake := q.rxTake l, txWrite := oo.popOk, txData := oo.popData.getD 0x00 }

/-- The reset cycle: both cores and every pump register; nothing is taken, written, pushed or popped (42 R140). -/
def pumpReset (s : State) : Host.Outcome State Fault Refusal :=
  .next { s with
    inbound := s.inbound.resetRegs s.cfg.inbound, inboundOut := s.inbound.resetOut s.cfg.inbound,
    outbound := s.outbound.resetRegs s.cfg.outbound, outboundOut := s.outbound.resetOut s.cfg.outbound,
    pump := Pump.fresh s.cfg, lineOut := LineOut.quiet }

/-- A cycle with rst = 0: both cores and the pump's registers step on one edge (42 R122, R123). -/
def pumpRun (l : LineIn) (s : State) : Host.Outcome State Fault Refusal :=
  if s.pump.inSt = .emit ∧ s.pump.outQ = [] then .fault .emitQueueEmpty
  else
    match s.inbound.cycle s.cfg.inbound s.pump.inPorts,
        s.outbound.cycle s.cfg.outbound (s.pump.outPorts l (s.outbound.emptyO s.cfg.outbound)) with
    | .ok (fi, oi), .ok (fo, oo) =>
      .next { s with
        inbound := fi, inboundOut := oi, outbound := fo, outboundOut := oo,
        pump := s.pump.edge s.cfg l (s.outbound.emptyO s.cfg.outbound) oi oo,
        lineOut := s.pump.lineOut l oo }
    | .error r, _ => .fault r
    | .ok _, .error r => .fault r

/-- One cycle of the Byte Pump (42; `rst` overrides everything, 60 R158). -/
def pumpCycle (rst : Bool) (l : LineIn) (s : State) : Host.Outcome State Fault Refusal :=
  if rst then pumpReset s else pumpRun l s

end Sys2Proof.Machine
end

