-- ==== Sys2Proof/Machine/Blocks.lean ====
section
/-! DEFINITION. One cycle of the elaborated block: the bare core's command, the two commands of a Channel Pair driven
directly (spec 41 R114), or the Byte Pump's cycle (42). -/

namespace Sys2Proof.Machine

open Sys2Proof

/-- A bare core: the command of its CMD word. -/
def coreCycle (i : Input) (s : State) : Host.Outcome State Fault Refusal :=
  exec (decode i.cmd) { s with sel := .single }

/-- The commands of the two streams of a Channel Pair. There is one `rst`: a RESET in either stream resets both cores
(41 R114). DESIGN CHOICE (log 7), unsafe: the spec does not say what two streams that disagree on bit 10 mean. -/
def pairCommands (i : Input) : Instr × Instr :=
  if decode i.cmd = .reset ∨ decode i.cmdOut = .reset then (.reset, .reset) else (decode i.cmd, decode i.cmdOut)

/-- A Channel Pair: each core steps by its own command on the one edge. The cores share nothing (41 R112), so one after
the other is the same edge (log 8). -/
def pairCycle (i : Input) (s : State) : Host.Outcome State Fault Refusal :=
  andThen (exec (pairCommands i).1 { s with sel := .inbound }) fun s₁ =>
    andThen (exec (pairCommands i).2 { s₁ with sel := .outbound }) fun s₂ =>
      .next { s₂ with sel := .single }

/-- One cycle of the elaborated block on its input ports; a configuration with no machine is refused (40 R80, 41 R110,
42 R121). -/
def runCycle (i : Input) (s : State) : Host.Outcome State Fault Refusal :=
  match configRefusal s.cfg with
  | some r => .refused r
  | none =>
    match s.cfg.block with
    | .core => coreCycle i s
    | .channelPair => pairCycle i s
    | .bytePump => pumpCycle i.rst (decodeLine i.line) s

/-- The state in which the next input word is the given command word of a bare core. -/
def State.withNextCommand (s : State) (w : CmdWord) : State :=
  { s with cfg := { s.cfg with block := .core }, stim := { cmd := w } :: s.stim }

end Sys2Proof.Machine
end

