-- ==== Sys2Proof/Machine/Step.lean ====
section
/-! DEFINITION. One step is one rising clock edge on the next input word of the stimulus (spec 00 R19, 40 R99). -/

namespace Sys2Proof.Machine

open Sys2Proof

/-- One step: the cycle of the next input word; with no input word left there is no cycle (log 1). -/
def step (s : State) : Host.Outcome State Fault Refusal :=
  match s.stim with
  | [] => .refused .stimulusEnded
  | i :: rest => runCycle i { s with stim := rest }

/-- The state whose very next step runs the command word with bits w, on a bare FIFO core (log 1). -/
def State.withFetchWord (s : State) (_nbits w : Nat) : State := s.withNextCommand (BitVec.ofNat 11 w)

end Sys2Proof.Machine
end

