-- ==== Sys2Proof/Machine/Assembler.lean ====
section
/-! DEFINITION. The assembler's notation: expansion of statements and pseudo-statements to words (spec 30 R69 to R72), the
printer (R71) and the readers of a line and of a program (R69, R70, R72). Notation only (D13): no step reads it. The
braces of REPEAT end a line and stand on a line (log 15). -/

namespace Sys2Proof.Machine

open Sys2Proof

/-- Why a line is no statement (log 15). -/
inductive AsmError where
  | unknownMnemonic
  | badImmediate
  | badCount
  | badText
  | badBlock
  | trailing
deriving DecidableEq, Repr

/-- The byte of an immediate: the number itself, or the ASCII code of the character (R69, D6). -/
def immByte : Imm → Byte
  | .num n => BitVec.ofNat 8 n
  | .chr c => BitVec.ofNat 8 c.toNat

/-- The commands of a statement, in order: the core five (R69) and the textual expansions of R70. -/
def expand : Stmt → List Instr
  | .nop => [.nop]
  | .push i => [.push (immByte i)]
  | .pop => [.pop]
  | .pushpop i => [.pushpop (immByte i)]
  | .reset => [.reset]
  | .pushs s => s.map fun c => .push (immByte (.chr c))
  | .popn n => List.replicate n .pop
  | .wait n => List.replicate n .nop
  | .rep n body => (List.replicate n (expand body)).flatten
  | .skip => []
  | .seq a b => expand a ++ expand b

/-- The words of a statement, refused where an immediate is out of its range (R69). -/
def assemble (t : Stmt) : Except AsmError (List CmdWord) :=
  if t.wf then .ok ((expand t).map encode) else .error .badImmediate

/-- The stimulus of one FIFO core that a statement stands for: line i is the command word of cycle i (R69). -/
def stimulusOf (ws : List CmdWord) : List Input := ws.map fun w => { cmd := w }

/-- The cycles of a line statement (R72): a CYC cycle with its LINE word, one reset cycle, or n plain CYC cycles. -/
def expandLine : LineStmt → List Input
  | .cyc none tx => [{ line := encodeLine { txReady := tx, rxReady := false, rxData := 0x00 } }]
  | .cyc (some i) tx => [{ line := encodeLine { txReady := tx, rxReady := true, rxData := immByte i } }]
  | .reset => [{ rst := true }]
  | .idle n => List.replicate n { line := encodeLine { txReady := false, rxReady := false, rxData := 0x00 } }

/-- The value of a hexadecimal digit, either case. -/
def hexVal (c : Char) : Option Nat :=
  let n := c.toNat
  if 48 ≤ n ∧ n ≤ 57 then some (n - 48)
  else if 65 ≤ n ∧ n ≤ 70 then some (n - 55)
  else if 97 ≤ n ∧ n ≤ 102 then some (n - 87)
  else none

/-- The value of a decimal digit. -/
def decVal (c : Char) : Option Nat :=
  let n := c.toNat
  if 48 ≤ n ∧ n ≤ 57 then some (n - 48) else none

/-- An upper-case hexadecimal digit. -/
def hexDigit (n : Nat) : Char := if n < 10 then Char.ofNat (48 + n) else Char.ofNat (55 + n)

/-- A byte as the printer writes it, `0xHH` (R71). -/
def printByte (d : Byte) : List Char := ['0', 'x', hexDigit (d.toNat / 16), hexDigit (d.toNat % 16)]

/-- The printer: a command by its row, D in two-digit hex (R71). -/
def printInstr : Instr → List Char
  | .nop => ['N', 'O', 'P']
  | .push d => ['P', 'U', 'S', 'H', ' '] ++ printByte d
  | .pop => ['P', 'O', 'P']
  | .pushpop d => ['P', 'U', 'S', 'H', 'P', 'O', 'P', ' '] ++ printByte d
  | .reset => ['R', 'E', 'S', 'E', 'T']

/-- A blank between the parts of a line. -/
def isBlank (c : Char) : Bool := c == ' ' || c == Char.ofNat 9

/-- A letter of a mnemonic. -/
def isLetter (c : Char) : Bool := decide ((65 ≤ c.toNat ∧ c.toNat ≤ 90) ∨ (97 ≤ c.toNat ∧ c.toNat ≤ 122))

/-- A letter in upper case: mnemonics are case-insensitive (R69). -/
def upper (c : Char) : Char := if 97 ≤ c.toNat ∧ c.toNat ≤ 122 then Char.ofNat (c.toNat - 32) else c

/-- The leading word of a line in upper case, and the rest after blanks. DESIGN CHOICE (log 15): no blank need stand
between a mnemonic and an operand that does not begin with a letter. -/
def readWord (cs : List Char) : List Char × List Char :=
  let cs := cs.dropWhile isBlank
  ((cs.takeWhile isLetter).map upper, (cs.dropWhile isLetter).dropWhile isBlank)

/-- A decimal number, at least one digit. -/
def readDec : Nat → List Char → Nat × List Char
  | acc, [] => (acc, [])
  | acc, c :: cs =>
    match decVal c with
    | some v => readDec (10 * acc + v) cs
    | none => (acc, c :: cs)

/-- A count n of POPN, WAIT, REPEAT or IDLE. DESIGN CHOICE (log 15): decimal digits only, and 0 is a count. -/
def readCount (cs : List Char) : Except AsmError (Nat × List Char) :=
  match cs with
  | [] => .error .badCount
  | c :: _ => if (decVal c).isSome then .ok (readDec 0 cs) else .error .badCount

/-- `imm8` of R69: a character literal, `0x` and one or two hexadecimal digits, or a decimal number to 255. -/
def readImm (cs : List Char) : Except AsmError (Imm × List Char) :=
  match cs with
  | '\'' :: c :: '\'' :: rest => if asciiOk c then .ok (.chr c, rest) else .error .badImmediate
  | '0' :: 'x' :: a :: b :: rest =>
    match hexVal a, hexVal b with
    | some x, some y => .ok (.num (16 * x + y), rest)
    | some x, none => .ok (.num x, b :: rest)
    | none, _ => .error .badImmediate
  | ['0', 'x', a] =>
    match hexVal a with
    | some x => .ok (.num x, [])
    | none => .error .badImmediate
  | _ =>
    match readCount cs with
    | .ok (n, rest) => if n < 256 then .ok (.num n, rest) else .error .badImmediate
    | .error _ => .error .badImmediate

/-- The text of PUSHS, between double quotes. DESIGN CHOICE (log 15): the first double quote ends it, it has no escape. -/
def readText : List Char → List Char → Except AsmError (List Char × List Char)
  | _, [] => .error .badText
  | acc, c :: cs =>
    if c = Char.ofNat 34 then .ok (acc.reverse, cs)
    else if asciiOk c then readText (c :: acc) cs
    else .error .badText

/-- After the statement a line holds nothing, or a comment from `;` on (R69). -/
def lineEnd {α : Type} (t : α) (cs : List Char) : Except AsmError α :=
  match cs.dropWhile isBlank with
  | [] => .ok t
  | ';' :: _ => .ok t
  | _ => .error .trailing

/-- Reading one line of stimulus of a FIFO core (R69, R70). -/
def readLine (cs : List Char) : Except AsmError Stmt :=
  let (w, rest) := readWord cs
  if w = ['N', 'O', 'P'] then lineEnd .nop rest
  else if w = ['P', 'O', 'P'] then lineEnd .pop rest
  else if w = ['R', 'E', 'S', 'E', 'T'] then lineEnd .reset rest
  else if w = ['P', 'U', 'S', 'H'] then
    match readImm rest with
    | .ok (i, rest) => lineEnd (.push i) rest
    | .error e => .error e
  else if w = ['P', 'U', 'S', 'H', 'P', 'O', 'P'] then
    match readImm rest with
    | .ok (i, rest) => lineEnd (.pushpop i) rest
    | .error e => .error e
  else if w = ['P', 'U', 'S', 'H', 'S'] then
    match rest with
    | c :: rest =>
      if c = Char.ofNat 34 then
        match readText [] rest with
        | .ok (s, rest) => lineEnd (.pushs s) rest
        | .error e => .error e
      else .error .badText
    | [] => .error .badText
  else if w = ['P', 'O', 'P', 'N'] then
    match readCount rest with
    | .ok (n, rest) => lineEnd (.popn n) rest
    | .error e => .error e
  else if w = ['W', 'A', 'I', 'T'] then
    match readCount rest with
    | .ok (n, rest) => lineEnd (.wait n) rest
    | .error e => .error e
  else .error .unknownMnemonic

/-- A line of a program: a statement, `REPEAT n` with its opening brace, or a closing brace (R70; log 15). -/
inductive ProgramLine where
  | stmt (t : Stmt)
  | opens (n : Nat)
  | closes
deriving DecidableEq, Repr

/-- Reading one line of a program. -/
def readProgramLine (cs : List Char) : Except AsmError ProgramLine :=
  let (w, rest) := readWord cs
  if w = ['R', 'E', 'P', 'E', 'A', 'T'] then
    match readCount rest with
    | .ok (n, rest) =>
      match rest.dropWhile isBlank with
      | c :: rest => if c = Char.ofNat 123 then lineEnd (.opens n) rest else .error .badBlock
      | [] => .error .badBlock
    | .error e => .error e
  else
    match cs.dropWhile isBlank with
    | c :: rest => if c = Char.ofNat 125 then lineEnd .closes rest else (readLine cs).map .stmt
    | [] => (readLine cs).map .stmt

/-- Reading the lines of a program of a FIFO core, with the REPEATs that are open, the innermost first, each with its
count and what stands before it (R69, R70). -/
def readProgramFrom : List (Nat × Stmt) → Stmt → List (List Char) → Except AsmError Stmt
  | [], done, [] => .ok done
  | _ :: _, _, [] => .error .badBlock
  | opened, done, l :: ls =>
    match readProgramLine l with
    | .error e => .error e
    | .ok (.stmt t) => readProgramFrom opened (.seq done t) ls
    | .ok (.opens n) => readProgramFrom ((n, done) :: opened) .skip ls
    | .ok .closes =>
      match opened with
      | [] => .error .badBlock
      | (n, before) :: opened => readProgramFrom opened (.seq before (.rep n done)) ls

/-- Reading a program of a FIFO core: a sequence of lines (R69, R70). -/
def readProgram (lines : List (List Char)) : Except AsmError Stmt := readProgramFrom [] .skip lines

/-- The optional TX of a CYC line, and its end (R72). -/
def readTx (rx : Option Imm) (cs : List Char) : Except AsmError LineStmt :=
  let (w, rest) := readWord cs
  if w = ['T', 'X'] then lineEnd (.cyc rx true) rest
  else if w = [] then lineEnd (.cyc rx false) rest
  else .error .trailing

/-- Reading one line of stimulus of a Byte Pump (R72). -/
def readLineStmt (cs : List Char) : Except AsmError LineStmt :=
  let (w, rest) := readWord cs
  if w = ['R', 'E', 'S', 'E', 'T'] then lineEnd .reset rest
  else if w = ['I', 'D', 'L', 'E'] then
    match readCount rest with
    | .ok (n, rest) => lineEnd (.idle n) rest
    | .error e => .error e
  else if w = ['C', 'Y', 'C'] then
    let (v, rest') := readWord rest
    if v = ['R', 'X'] then
      match readImm rest' with
      | .ok (i, rest'') => readTx (some i) rest''
      | .error e => .error e
    else readTx none rest
  else .error .unknownMnemonic

/-- Reading a line stimulus of a Byte Pump: its cycles, in order (R72). -/
def readLineProgram : List (List Char) → Except AsmError (List Input)
  | [] => .ok []
  | l :: ls =>
    match readLineStmt l, readLineProgram ls with
    | .ok t, .ok is => .ok (expandLine t ++ is)
    | .error e, _ => .error e
    | .ok _, .error e => .error e

end Sys2Proof.Machine
end

