-- ==== Sys2Proof/Machine/Line.lean ====
section
/-! DEFINITION. The line, the environment of a Byte Pump: what it sees of a run cycle by cycle, and its duties (spec 42
R134). step leaves the LINE words free; a claim about a run that needs the line takes `LineDuties` as a premise. -/

namespace Sys2Proof.Machine

open Sys2Proof

/-- One cycle as the line sees it: the ports (30 R67), and what only the line knows before the cycle.
DESIGN CHOICE (log 17): `taken`, `accepted` and `canAccept` are the line's own, not state of the block. -/
structure LineCycle where
  drive     : LineIn      -- what the line drives
  answer    : LineOut     -- what the pump answers
  taken     : Nat         -- how many of the line's bytes were taken before
  accepted  : List Byte   -- the bytes the line accepted before, oldest first
  canAccept : Bool        -- the line can accept a byte
deriving DecidableEq, Repr

/-- (a) A ready byte is valid and stable: it is the line's oldest byte not yet taken (R134 (a)). -/
abbrev lineValid (bytes : List Byte) (c : LineCycle) : Prop :=
  c.drive.rxReady = true → bytes[c.taken]? = some c.drive.rxData

/-- (b) After a take the line goes on to its next byte, so that one byte is taken once (R134 (b)). -/
abbrev lineAdvances (c c' : LineCycle) : Prop := c.answer.rxTake = true → c'.taken = c.taken + 1

/-- (c) While a byte is not taken, the line holds it (R134 (c)). -/
abbrev lineHolds (c c' : LineCycle) : Prop :=
  c.answer.rxTake = false → c'.taken = c.taken ∧
    (c.drive.rxReady = true → c'.drive.rxReady = true ∧ c'.drive.rxData = c.drive.rxData)

/-- (d) A byte written while tx_ready = 1 is accepted in that cycle, and nothing else is (R134 (d)). -/
abbrev lineAccepts (c c' : LineCycle) : Prop :=
  c'.accepted = if c.drive.txReady && c.answer.txWrite then c.accepted ++ [c.answer.txData] else c.accepted

/-- (e) tx_ready is 0 until the line can accept another byte (R134 (e)). -/
abbrev lineReadyIsTrue (c : LineCycle) : Prop := c.canAccept = false → c.drive.txReady = false

/-- The line's duties over the cycles of a run, for the bytes the line has to present (R134 (a) to (e)). -/
abbrev LineDuties (bytes : List Byte) (cs : List LineCycle) : Prop :=
  (∀ c ∈ cs, lineValid bytes c ∧ lineReadyIsTrue c) ∧
  cs.IsChain fun c c' => lineAdvances c c' ∧ lineHolds c c' ∧ lineAccepts c c'

/-- A run of steps whose cycles are, at the line's ports, those of the list; `none` if the run stops or shows others. -/
def lineRun : List LineCycle → State → Option State
  | [], s => some s
  | c :: cs, s =>
    match s.stim, step s with
    | i :: _, .next t => if decodeLine i.line = c.drive ∧ t.lineOut = c.answer then lineRun cs t else none
    | [], .next _ => none
    | _, .fault _ => none
    | _, .refused _ => none

/-- The transform over a sequence of bytes: the last state, and the bytes of all calls in order (42 R126). -/
def xformAll (c : Config) (xs : XState) : List Byte → XState × List Byte
  | [] => (xs, [])
  | b :: bs =>
    ((xformAll c (applyXform c xs b).1 bs).1, (applyXform c xs b).2 ++ (xformAll c (applyXform c xs b).1 bs).2)

end Sys2Proof.Machine
end

