-- ==== Sys2Proof/Safety.lean ====
section
/-! DEFINITION. What the claims are stated with: the invariants of a core (spec 20 R48, 70 R176), of the Byte Pump (42
R136, R137, 10 R32) and of a whole state; the bytes a core holds, in order; the bytes inside a pump. -/

namespace Sys2Proof.Machine

open Sys2Proof

/-- The registers hold what their widths admit: indices and pipeline stages below 2^W, S stages, storage canonical with
its slots in 0..C-1 (10 R22 to R27, 20 R40). -/
abbrev Fifo.WellFormed (p : FifoParams) (f : Fifo) : Prop :=
  Memory.wf f.storage ∧ (∀ x ∈ f.storage, x.1 < p.cap) ∧ f.wr < 2 ^ p.idxW ∧ f.rd < 2 ^ p.idxW ∧
  f.wsync.length = p.syncStages ∧ f.rsync.length = p.syncStages ∧
  (∀ x ∈ f.wsync, x < 2 ^ p.idxW) ∧ (∀ x ∈ f.rsync, x < 2 ^ p.idxW)

/-- Views never overtake, stage by stage (20 R48, 70 R176 (iii)): along `rd, rsync[1], …, rsync[S]` the distance from
`wr` does not shrink and stays at most C; along `wr, wsync[1], …, wsync[S]` the distance to `rd` does not grow. -/
abbrev Fifo.ViewsOrdered (p : FifoParams) (f : Fifo) : Prop :=
  (f.rd :: f.rsync).Pairwise (fun x y => subIdx p.idxW f.wr x ≤ subIdx p.idxW f.wr y) ∧
  (∀ x ∈ f.rd :: f.rsync, subIdx p.idxW f.wr x ≤ p.cap) ∧
  (f.wr :: f.wsync).Pairwise (fun x y => subIdx p.idxW y f.rd ≤ subIdx p.idxW x f.rd)

/-- The byte j places behind the oldest live one (70 R176 (ii)). -/
def Fifo.liveByte (p : FifoParams) (f : Fifo) (j : Nat) : Option Byte :=
  Memory.read f.storage (slotOf p (addIdx p.idxW f.rd j))

/-- Every live slot has been written (70 R176 (ii)). -/
abbrev Fifo.LiveWritten (p : FifoParams) (f : Fifo) : Prop :=
  ∀ j < f.occupancy p, (f.liveByte p j).isSome = true

/-- The invariant of one core (70 R176). -/
abbrev Fifo.Inv (p : FifoParams) (f : Fifo) : Prop :=
  f.WellFormed p ∧ f.ViewsOrdered p ∧ f.LiveWritten p

/-- The bytes a core holds, oldest first (40 R98). -/
def Fifo.contents (p : FifoParams) (f : Fifo) : List (Option Byte) :=
  (List.range (f.occupancy p)).map (f.liveByte p)

/-- The invariant of the Byte Pump: out_q is non-empty exactly in EMIT (10 R32), inbound holds a byte exactly in DELIVERED
and never dropped one (42 R136), no byte is stranded in outbound (42 R137), the counters keep their width (10 R36). -/
abbrev PumpInv (s : State) : Prop :=
  (s.pump.outQ ≠ [] ↔ s.pump.inSt = .emit) ∧ s.pump.outQ.length ≤ s.cfg.xformMax ∧
  (s.pump.inSt = .delivered → s.inbound.occupancy s.cfg.inbound = 1) ∧
  (s.pump.inSt ≠ .delivered → s.inbound.occupancy s.cfg.inbound = 0) ∧ s.pump.rxDropCnt = 0 ∧
  (s.outbound.occupancy s.cfg.outbound ≠ 0 → s.pump.txIrqEn = true) ∧ s.pump.txDropCnt < 2 ^ s.cfg.dropW

/-- The invariant of a state: its configuration has a machine, no core is selected between steps, and the elaborated
block's cores and pump meet theirs. -/
abbrev State.Inv (s : State) : Prop :=
  configRefusal s.cfg = none ∧ s.sel = .single ∧
  (s.cfg.block = .core → s.core.Inv s.cfg.core) ∧
  (s.cfg.block ≠ .core → s.inbound.Inv s.cfg.inbound ∧ s.outbound.Inv s.cfg.outbound) ∧
  (s.cfg.block = .bytePump → PumpInv s)

/-- The received byte the pump has not yet handed to the transform: in rx_hold, then in inbound (42 R125, R126). -/
def State.pending (s : State) : List (Option Byte) :=
  match s.pump.inSt with
  | .idle => []
  | .byteAvailable => [some s.pump.rxHold]
  | .delivered => s.inbound.contents s.cfg.inbound
  | .emit => []

/-- The transformed bytes on their way to the line, oldest first: those in outbound, then those of out_q. -/
def State.outgoing (s : State) : List (Option Byte) :=
  s.outbound.contents s.cfg.outbound ++ s.pump.outQ.map some

/-- Commands one after the other on the selected core, one cycle each (40 R99). -/
def execAll : List Instr → State → Host.Outcome State Fault Refusal
  | [], s => .next s
  | i :: is, s => andThen (exec i s) (execAll is)

/-- The bytes that a run of commands pushed (those whose push fired) and popped, in order, and its end state; `none` if
the run stops early (40 R98). -/
def execTrace : List Instr → State → Option (List Byte × List Byte × State)
  | [], s => some ([], [], s)
  | i :: is, s =>
    match exec i s with
    | .next t =>
      match execTrace is t with
      | some (pushed, popped, u) =>
        some ((if (t.out s.sel).pushOk then (operandOf i).toList else []) ++ pushed,
          (t.out s.sel).popData.toList ++ popped, u)
      | none => none
    | .fault _ => none
    | .refused _ => none

/-- A core whose views lag nothing: every stage holds the index it follows. -/
abbrev Fifo.Settled (f : Fifo) : Prop := (∀ x ∈ f.wsync, x = f.wr) ∧ (∀ x ∈ f.rsync, x = f.rd)

/-- A safe run stops only where the input ends or no machine exists, never by a fault. -/
def Safe (s : State) : Prop := ∀ r, step s ≠ .fault r

end Sys2Proof.Machine
end

