-- ==== Sys2Proof/Certificates/Slice0/Obligations.lean ====
section
/-! DEFINITION. The statements for the provers, in the order of the spec's files. Each docstring names the rule or the
section of spec/ it rests on; D<n> is a decision row of spec/92_eei_decisions.md, and a statement that rests on one says
so. Throughout, `p` and `f` are the parameters and registers of the core that a command drives. -/

open Sys2Proof Sys2Proof.Machine

/-! ### Encoding (30) -/

/-- 30 section 2 (spec decision D12): every word hits exactly one row of the opcode table, the row of the command it
decodes to. -/
def Obligations.EveryWordHitsExactlyItsRow : Prop :=
  ∀ w : CmdWord, ∃ r ∈ opcodeTable, r.hits w = true ∧ r.mnemonic = (decode w).mnemonic ∧
    ∀ r' ∈ opcodeTable, r'.hits w = true → r' = r

/-- 30 section 2 (D12): bits 10:8 select the command and bits 7:0 are its operand, written here on the word's number. -/
def Obligations.WordBitsGiveCommandAndOperand : Prop :=
  ∀ w : CmdWord, decode w =
    if 0x400 ≤ w.toNat then .reset
    else if 0x300 ≤ w.toNat then .pushpop (BitVec.ofNat 8 w.toNat)
    else if 0x200 ≤ w.toNat then .pop
    else if 0x100 ≤ w.toNat then .push (BitVec.ofNat 8 w.toNat)
    else .nop

/-- 30 sections 2 and 5 (D12, D13): decoding a command's encoding gives the command back, for every command and operand. -/
def Obligations.DecodeOfEncodeIsTheCommand : Prop :=
  ∀ i : Instr, i.wf = true → decode (encode i) = i

/-- 30 section 5 (D13): re-encoding a word keeps its command bits and its operand and clears every ignored bit. -/
def Obligations.EncodeOfDecodeClearsIgnoredBits : Prop :=
  ∀ w : CmdWord, encode (decode w) =
    w &&& (if decode w = .reset then 0x400 else if operandOf (decode w) = none then 0x700 else 0x7FF)

/-- 95 section 3, program P1, and 95 sections 2.3 and 2.7: words of the spec decode to the commands it gives them. -/
def Obligations.WordsOfTheSpecDecode : Prop :=
  decode 0x400 = .reset ∧ decode 0x141 = .push 0x41 ∧ decode 0x146 = .push 0x46 ∧ decode 0x200 = .pop ∧
  decode 0x312 = .pushpop 0x12 ∧ decode 0x000 = .nop ∧ decode 0x0FF = .nop ∧ decode 0x7FF = .reset

/-- 30 section 4 (D12): a LINE word is exactly its three fields, bit 9, bit 8 and bits 7:0. -/
def Obligations.LineWordIsItsThreeFields : Prop :=
  (∀ l : LineIn, decodeLine (encodeLine l) = l) ∧ (∀ w : LineWord, encodeLine (decodeLine w) = w) ∧
  (∀ w : LineWord, (decodeLine w).txReady = decide (0x200 ≤ w.toNat) ∧
    (decodeLine w).rxReady = decide (0x100 ≤ w.toNat % 0x200) ∧ (decodeLine w).rxData = BitVec.ofNat 8 w.toNat)

/-- 30 section 5 (D13; log 15): what the printer writes for a command, the reader reads back as that command. -/
def Obligations.PrintedCommandReadsBack : Prop :=
  ∀ i : Instr, ∃ t, readLine (printInstr i) = .ok t ∧ t.wf = true ∧ expand t = [i]

/-- 30 section 5 (D13): the pseudo-instructions expand to one PUSH per character, n POP, n NOP, and n copies of a body. That
a character is the byte of its ASCII code is general knowledge to the spec (D6) and PRESUMED by the model (log 15). -/
def Obligations.PseudoInstructionsExpand : Prop :=
  (∀ s : List Char, s.all asciiOk = true →
    assemble (.pushs s) = .ok (s.map fun c => BitVec.ofNat 11 (0x100 + c.toNat))) ∧
  (∀ n, assemble (.popn n) = .ok (List.replicate n 0x200)) ∧
  (∀ n, assemble (.wait n) = .ok (List.replicate n 0x000)) ∧
  (∀ n t ws, assemble t = .ok ws → assemble (.rep n t) = .ok (List.replicate n ws).flatten)

/-! ### Elaboration (40 section 1, 41, 42 section 1) -/

/-- 40 section 1 (D5): a core elaborates exactly when C is 2^k for a k with W ≥ k + 1; nothing is rounded. -/
def Obligations.ElaboratesExactlyFittingPowersOfTwo : Prop :=
  ∀ p : FifoParams, elaborates p = true ↔ ∃ k, p.cap = 2 ^ k ∧ k + 1 ≤ p.idxW

/-- 40 section 1, 60 section 1 (D5; log 13): where the core does not elaborate, creation reports INVALID_CAPACITY and
every command is refused with it. -/
def Obligations.InvalidCapacityRefusesEveryCommand : Prop :=
  ∀ p : FifoParams, elaborates p = false → createFifo p = .error .invalidCapacity ∧
    ∀ (s : State) (i : Instr), paramsOf s.cfg s.sel = p → exec i s = .refused .invalidCapacity

/-- 41, composition, and 60 section 1 (D5): a Channel Pair elaborates when each core does on its own, and is refused with
InvalidCapacity when either is refused. That a state which holds such a configuration answers every step with that
refusal is the model's choice (log 13). -/
def Obligations.PairIsRefusedWhenEitherCoreIs : Prop :=
  ∀ c : Config, c.block = .channelPair →
    (elaborates c.inbound = true ∧ elaborates c.outbound = true → ∀ l, create c l = .ok (State.fresh c l)) ∧
    (elaborates c.inbound = false ∨ elaborates c.outbound = false →
      (∀ l, create c l = .error .invalidCapacity) ∧
      ∀ s : State, s.cfg = c → s.stim ≠ [] → step s = .refused .invalidCapacity)

/-- 42 section 1 (D5, D17, D21): a Byte Pump runs only with both cores elaborated, S = 0 on both and a transform within
XFORM_MAX. That a state which holds another configuration answers every step with a refusal, and that the refusal of the
last two checks is named pumpConfig, is the model's choice (log 13). -/
def Obligations.PumpConfigurationChecks : Prop :=
  ∀ s : State, s.cfg.block = .bytePump → s.stim ≠ [] →
    (step s = .refused .invalidCapacity ↔
      elaborates s.cfg.inbound = false ∨ elaborates s.cfg.outbound = false) ∧
    (step s = .refused .pumpConfig ↔
      elaborates s.cfg.inbound = true ∧ elaborates s.cfg.outbound = true ∧
      (s.cfg.inbound.syncStages ≠ 0 ∨ s.cfg.outbound.syncStages ≠ 0 ∨
        ∃ xs b, s.cfg.xformMax < (applyXform s.cfg xs b).2.length))

/-! ### Index arithmetic, slots and status (20, 40 sections 2 and 4) -/

/-- 20 R41: mask = C - 1; each slot is its index AND mask, its index's low k bits, its index mod C; with C = 1 the mask
and both slots are 0. -/
def Obligations.SlotIsIndexModCapacity : Prop :=
  ∀ (p : FifoParams) (f : Fifo), elaborates p = true →
    p.mask = p.cap - 1 ∧ f.wslot p = f.wr % p.cap ∧ f.rslot p = f.rd % p.cap ∧
    (BitVec.ofNat p.idxW f.wr &&& BitVec.ofNat p.idxW (p.cap - 1)).toNat = f.wslot p ∧
    (BitVec.ofNat p.idxW f.rd &&& BitVec.ofNat p.idxW (p.cap - 1)).toNat = f.rslot p ∧
    f.wslot p = f.wr % 2 ^ p.capLog2 ∧ f.rslot p = f.rd % 2 ^ p.capLog2 ∧
    (p.cap = 1 → p.mask = 0 ∧ f.wslot p = 0 ∧ f.rslot p = 0)

/-- 20 section 2, 40 section 2 (D1, D10): the views are the true indices for S = 0 and the last pipeline stages for
S ≥ 1, and the counts are W-bit differences from them. -/
def Obligations.CountsAreDifferencesFromViews : Prop :=
  ∀ (p : FifoParams) (f : Fifo), f.WellFormed p →
    (p.syncStages = 0 → f.rview p = f.rd ∧ f.wview p = f.wr) ∧
    (∀ n, p.syncStages = n + 1 → f.rsync[n]? = some (f.rview p) ∧ f.wsync[n]? = some (f.wview p)) ∧
    f.cntP p = (f.wr + 2 ^ p.idxW - f.rview p) % 2 ^ p.idxW ∧
    f.cntC p = (f.wview p + 2 ^ p.idxW - f.rd) % 2 ^ p.idxW ∧
    f.occupancy p = (f.wr + 2 ^ p.idxW - f.rd) % 2 ^ p.idxW

/-- 40 section 6, 70 section 3 (the rules R100 and R182 in part): an increment of either index, across its wrap too,
changes the occupancy by exactly one. -/
def Obligations.IncrementKeepsOccupancyExact : Prop :=
  ∀ w wr rd cap : Nat, wr < 2 ^ w → rd < 2 ^ w → cap < 2 ^ w →
    (subIdx w wr rd < cap → subIdx w (addIdx w wr 1) rd = subIdx w wr rd + 1) ∧
    (0 < subIdx w wr rd → subIdx w wr (addIdx w rd 1) = subIdx w wr rd - 1)

/-- 40 section 4, 30 section 1 (D8, D11): in every cycle, a RESET cycle too, the status outputs are those of the pre-edge
registers: `full_o` compares the producer's count with C, `empty_o` the consumer's with 0, `count_o` is the occupancy,
whose truncation loses nothing in a state that meets the invariant. -/
def Obligations.StatusOutputsShowPreEdgeState : Prop :=
  ∀ (i : Instr) (s t : State) (p : FifoParams) (f : Fifo), paramsOf s.cfg s.sel = p → s.fifo s.sel = f →
    exec i s = .next t → f.Inv p →
    (t.out s.sel).count = f.occupancy p ∧
    ((t.out s.sel).full = true ↔ f.cntP p = p.cap) ∧ ((t.out s.sel).empty = true ↔ f.cntC p = 0) ∧
    (p.syncStages = 0 →
      ((t.out s.sel).full = true ↔ (t.out s.sel).count = p.cap) ∧
      ((t.out s.sel).empty = true ↔ (t.out s.sel).count = 0))

/-- 40 R93: capacity_o is C, which COUNT_W bits hold, in the cycle of every command, and no command, RESET among them,
changes C. -/
def Obligations.CapacityOutputIsConstant : Prop :=
  ∀ (i : Instr) (s t : State), exec i s = .next t →
    (t.out s.sel).capacity = (paramsOf s.cfg s.sel).cap ∧
    (t.out s.sel).capacity < 2 ^ (paramsOf s.cfg s.sel).countW ∧
    ∀ (j : Instr) (u : State), exec j t = .next u → (u.out s.sel).capacity = (paramsOf s.cfg s.sel).cap

/-- 40 section 6 (derived there from R81 and R87): with C = 1 and S = 0, full is exactly not empty, and a PUSHPOP fires
exactly one half. -/
def Obligations.SingleSlotIsFullOrEmpty : Prop :=
  ∀ (s : State) (p : FifoParams) (f : Fifo) (d : Byte), paramsOf s.cfg s.sel = p → s.fifo s.sel = f →
    elaborates p = true → f.Inv p → p.cap = 1 → p.syncStages = 0 →
    f.fullO p = !f.emptyO p ∧
    ∃ t, exec (.pushpop d) s = .next t ∧ (t.out s.sel).pushOk = !(t.out s.sel).popOk

/-! ### The commands (40 section 3) -/

/-- 40 section 3, NOP (D12): a NOP completes, fires nothing, reports nothing, and changes nothing but the view
pipelines. -/
def Obligations.NopOnlyShiftsViews : Prop :=
  ∀ (s : State) (p : FifoParams) (f : Fifo), paramsOf s.cfg s.sel = p → s.fifo s.sel = f → elaborates p = true →
    ∃ o, exec .nop s = .next (s.setFifo s.sel
        { f with wsync := (f.wr :: f.wsync).take p.syncStages, rsync := (f.rd :: f.rsync).take p.syncStages } o) ∧
      o.pushOk = false ∧ o.popOk = false ∧ o.popData = none ∧ o.pushRes = none ∧ o.popRes = none

/-- 40 section 3, PUSH (R83 and R84; pop_data is presented as an option, D8): a PUSH completes; if the producer's count
is not C it stores D in slot wr mod C, adds 1 to wr modulo 2^W and reports OK, else storage and wr stay and it reports
FULL. No other slot changes, rd stays, no pop result appears. -/
def Obligations.PushStoresByteOrReportsFull : Prop :=
  ∀ (s : State) (p : FifoParams) (f : Fifo) (d : Byte), paramsOf s.cfg s.sel = p → s.fifo s.sel = f →
    elaborates p = true →
    ∃ g o, exec (.push d) s = .next (s.setFifo s.sel g o) ∧ g.rd = f.rd ∧
      g.wsync = (f.wr :: f.wsync).take p.syncStages ∧ g.rsync = (f.rd :: f.rsync).take p.syncStages ∧
      o.popOk = false ∧ o.popData = none ∧ o.popRes = none ∧
      (f.cntP p ≠ p.cap →
        o.pushOk = true ∧ o.pushRes = some .ok ∧ g.wr = (f.wr + 1) % 2 ^ p.idxW ∧
        ∀ k, Memory.read g.storage k = if k = f.wr % p.cap then some d else Memory.read f.storage k) ∧
      (f.cntP p = p.cap →
        o.pushOk = false ∧ o.pushRes = some .full ∧ g.wr = f.wr ∧ g.storage = f.storage)

/-- 40 section 3, POP (R85 and R86; pop_data is presented as an option, D8): a POP completes (where it fires, with its
slot written, 10 section 2); if the consumer's count is not 0 it returns the byte of slot rd mod C in this cycle and
adds 1 to rd modulo 2^W, else rd stays, no byte appears and it reports EMPTY. Storage and wr stay. -/
def Obligations.PopReturnsByteOrReportsEmpty : Prop :=
  ∀ (s : State) (p : FifoParams) (f : Fifo), paramsOf s.cfg s.sel = p → s.fifo s.sel = f → elaborates p = true →
    (f.cntC p ≠ 0 → (Memory.read f.storage (f.rd % p.cap)).isSome = true) →
    ∃ g o, exec .pop s = .next (s.setFifo s.sel g o) ∧ g.wr = f.wr ∧ g.storage = f.storage ∧
      g.wsync = (f.wr :: f.wsync).take p.syncStages ∧ g.rsync = (f.rd :: f.rsync).take p.syncStages ∧
      o.pushOk = false ∧ o.pushRes = none ∧
      (f.cntC p ≠ 0 →
        o.popOk = true ∧ o.popRes = some .ok ∧ o.popData = Memory.read f.storage (f.rd % p.cap) ∧
        g.rd = (f.rd + 1) % 2 ^ p.idxW) ∧
      (f.cntC p = 0 → o.popOk = false ∧ o.popRes = some .empty ∧ o.popData = none ∧ g.rd = f.rd)

/-- 40 section 3, PUSHPOP (D7): it completes under POP's condition; the push half and the pop half are decided each by
its own comparator on the pre-edge registers and storage, with no bypass, and have the effects of PUSH and of POP. -/
def Obligations.PushpopRunsBothHalvesOnPreEdgeState : Prop :=
  ∀ (s : State) (p : FifoParams) (f : Fifo) (d : Byte), paramsOf s.cfg s.sel = p → s.fifo s.sel = f →
    elaborates p = true → (f.cntC p ≠ 0 → (Memory.read f.storage (f.rd % p.cap)).isSome = true) →
    ∃ g o, exec (.pushpop d) s = .next (s.setFifo s.sel g o) ∧
      g.wsync = (f.wr :: f.wsync).take p.syncStages ∧ g.rsync = (f.rd :: f.rsync).take p.syncStages ∧
      (f.cntP p ≠ p.cap →
        o.pushOk = true ∧ o.pushRes = some .ok ∧ g.wr = (f.wr + 1) % 2 ^ p.idxW ∧
        ∀ k, Memory.read g.storage k = if k = f.wr % p.cap then some d else Memory.read f.storage k) ∧
      (f.cntP p = p.cap →
        o.pushOk = false ∧ o.pushRes = some .full ∧ g.wr = f.wr ∧ g.storage = f.storage) ∧
      (f.cntC p ≠ 0 →
        o.popOk = true ∧ o.popRes = some .ok ∧ o.popData = Memory.read f.storage (f.rd % p.cap) ∧
        g.rd = (f.rd + 1) % 2 ^ p.idxW) ∧
      (f.cntC p = 0 → o.popOk = false ∧ o.popRes = some .empty ∧ o.popData = none ∧ g.rd = f.rd)

/-- 40 section 3, RESET, and 70 section 1 (D2, D3): a RESET completes, fires nothing, reports nothing, sets both indices
and every pipeline stage to 0 and leaves storage; then the core is empty and not full; a second RESET changes nothing
more. -/
def Obligations.ResetGivesFreshBuffer : Prop :=
  ∀ (s : State) (p : FifoParams) (f : Fifo), paramsOf s.cfg s.sel = p → s.fifo s.sel = f → elaborates p = true →
    ∃ g o, exec .reset s = .next (s.setFifo s.sel g o) ∧ g.storage = f.storage ∧ g.wr = 0 ∧ g.rd = 0 ∧
      g.wsync = List.replicate p.syncStages 0 ∧ g.rsync = List.replicate p.syncStages 0 ∧
      o.pushOk = false ∧ o.popOk = false ∧ o.popData = none ∧ o.pushRes = none ∧ o.popRes = none ∧
      g.countO p = 0 ∧ g.emptyO p = true ∧ g.fullO p = false ∧
      ∃ o', exec .reset (s.setFifo s.sel g o) = .next (s.setFifo s.sel g o')

/-- 10 section 2 (D3, D30; log 3): a POP or PUSHPOP whose pop fires on a slot nothing has written since power-up
faults. -/
def Obligations.PopOfUnwrittenSlotFaults : Prop :=
  ∀ (s : State) (p : FifoParams) (f : Fifo) (d : Byte), paramsOf s.cfg s.sel = p → s.fifo s.sel = f →
    elaborates p = true → f.cntC p ≠ 0 → Memory.read f.storage (f.rd % p.cap) = none →
    exec .pop s = .fault .unwrittenSlot ∧ exec (.pushpop d) s = .fault .unwrittenSlot

/-- The frame of all five commands (10 section 4, 40 section 3): the two other cores and their outputs, the pump and its
line outputs, the configuration, the input to come and the selection stay. -/
def Obligations.CommandsTouchOnlyTheirCore : Prop :=
  ∀ (i : Instr) (s t : State), exec i s = .next t →
    (∀ k, k ≠ s.sel → t.fifo k = s.fifo k ∧ t.out k = s.out k) ∧ t.pump = s.pump ∧ t.lineOut = s.lineOut ∧
    t.cfg = s.cfg ∧ t.stim = s.stim ∧ t.sel = s.sel

/-- The frame inside the core (20 section 2, R44; RESET is the only other writer of the indices, 70 section 1): without a
firing push storage and wr stay, without a firing pop rd stays, and no command changes a slot but a firing push its own;
each side's verdict is a function of its own index and its view of the other. -/
def Obligations.EachSideWritesOnlyItsOwn : Prop :=
  (∀ (i : Instr) (s t : State) (p : FifoParams) (f g : Fifo), paramsOf s.cfg s.sel = p → s.fifo s.sel = f →
    exec i s = .next t → t.fifo s.sel = g →
    (∀ k, ((t.out s.sel).pushOk = false ∨ k ≠ f.wr % p.cap) → Memory.read g.storage k = Memory.read f.storage k) ∧
    (i ≠ .reset → (t.out s.sel).pushOk = false → g.storage = f.storage ∧ g.wr = f.wr) ∧
    (i ≠ .reset → (t.out s.sel).popOk = false → g.rd = f.rd)) ∧
  (∀ (p : FifoParams) (f f' : Fifo), f.wr = f'.wr → f.rview p = f'.rview p → f.fullO p = f'.fullO p) ∧
  (∀ (p : FifoParams) (f f' : Fifo), f.rd = f'.rd → f.wview p = f'.wview p → f.emptyO p = f'.emptyO p)

/-- 60 R151 FULL: denied in the same cycle as push_ok = 0, by PUSH and by PUSHPOP's push half; the byte is not stored and
the state is unchanged, but for the view pipelines, which shift whatever the command (none for S = 0), and the pop half's
rd; a later request may be made. -/
def Obligations.FullDeniesPushWithoutEffect : Prop :=
  ∀ (s : State) (p : FifoParams) (f : Fifo) (d : Byte), paramsOf s.cfg s.sel = p → s.fifo s.sel = f →
    elaborates p = true → f.cntP p = p.cap →
    (∃ t, exec (.push d) s = .next t ∧ (t.out s.sel).pushOk = false ∧ (t.out s.sel).pushRes = some .full ∧
      t.fifo s.sel = { f with wsync := (f.wr :: f.wsync).take p.syncStages,
                              rsync := (f.rd :: f.rsync).take p.syncStages } ∧
      ∀ d', ∃ u, exec (.push d') t = .next u ∧
        ((u.out s.sel).pushRes = some .ok ∨ (u.out s.sel).pushRes = some .full)) ∧
    ∀ t, exec (.pushpop d) s = .next t → (t.out s.sel).pushOk = false ∧ (t.out s.sel).pushRes = some .full ∧
      (t.fifo s.sel).storage = f.storage ∧ (t.fifo s.sel).wr = f.wr

/-- 60 R152 EMPTY: denied in the same cycle as pop_ok = 0, by POP and by PUSHPOP's pop half; no byte is produced, and the
state is unchanged, but for the view pipelines, which shift whatever the command (none for S = 0), and the push half's
slot and wr. -/
def Obligations.EmptyDeniesPopWithoutEffect : Prop :=
  ∀ (s : State) (p : FifoParams) (f : Fifo) (d : Byte), paramsOf s.cfg s.sel = p → s.fifo s.sel = f →
    elaborates p = true → f.cntC p = 0 →
    (∃ t, exec .pop s = .next t ∧ (t.out s.sel).popOk = false ∧ (t.out s.sel).popRes = some .empty ∧
      (t.out s.sel).popData = none ∧
      t.fifo s.sel = { f with wsync := (f.wr :: f.wsync).take p.syncStages,
                              rsync := (f.rd :: f.rsync).take p.syncStages }) ∧
    ∃ t, exec (.pushpop d) s = .next t ∧ (t.out s.sel).popOk = false ∧ (t.out s.sel).popRes = some .empty ∧
      (t.out s.sel).popData = none ∧ (t.fifo s.sel).rd = f.rd

/-- 60 section 2 (R154 and R155 in part): a command all of whose requests are denied leaves the same registers as a NOP,
so the next cycle goes on as if it had not occurred. -/
def Obligations.DeniedCommandLeavesWhatNopLeaves : Prop :=
  ∀ (i : Instr) (s t u : State), i ≠ .reset → exec i s = .next t → exec .nop s = .next u →
    (t.out s.sel).pushOk = false → (t.out s.sel).popOk = false →
    t.fifo s.sel = u.fifo s.sel ∧ ∀ j v w, exec j t = .next v → exec j u = .next w → v = w

/-- 40 section 5 (D9): while full, the value on push_data affects no state and no output. -/
def Obligations.PushDataIgnoredUnlessPushFires : Prop :=
  ∀ (s : State) (d d' : Byte), (s.fifo s.sel).cntP (paramsOf s.cfg s.sel) = (paramsOf s.cfg s.sel).cap →
    exec (.push d) s = exec (.push d') s ∧ exec (.pushpop d) s = exec (.pushpop d') s

/-- 40 section 3, 60 section 4 (D7): the halves of a PUSHPOP do not see each other: its push results, storage and wr are
those of PUSH, its pop results and rd those of POP, its pipelines those of both. -/
def Obligations.PushpopHalvesAreIndependent : Prop :=
  ∀ (s t u v : State) (d : Byte), exec (.pushpop d) s = .next t → exec (.push d) s = .next u → exec .pop s = .next v →
    t.fifo s.sel = { v.fifo s.sel with storage := (u.fifo s.sel).storage, wr := (u.fifo s.sel).wr } ∧
    t.fifo s.sel = { u.fifo s.sel with rd := (v.fifo s.sel).rd } ∧
    t.out s.sel = { v.out s.sel with pushOk := (u.out s.sel).pushOk, pushRes := (u.out s.sel).pushRes }

/-- 40 section 4 (D10): in every cycle without reset, stage 1 of each pipeline takes the pre-edge index and stage n + 1
takes stage n; the pipelines keep their length. -/
def Obligations.PipelinesShiftEveryCycle : Prop :=
  ∀ (i : Instr) (s t : State) (p : FifoParams) (f g : Fifo), paramsOf s.cfg s.sel = p → s.fifo s.sel = f →
    f.WellFormed p → i ≠ .reset → exec i s = .next t → t.fifo s.sel = g →
    (0 < p.syncStages → g.wsync[0]? = some f.wr ∧ g.rsync[0]? = some f.rd) ∧
    (∀ n, n + 1 < p.syncStages → g.wsync[n + 1]? = f.wsync[n]? ∧ g.rsync[n + 1]? = f.rsync[n]?) ∧
    g.wsync.length = p.syncStages ∧ g.rsync.length = p.syncStages

/-! ### The queue (20, 40 section 6, 70 sections 2 and 3) -/

/-- 20 section 2 (derived there from R47, R83 to R86, R25): stale views are safe: the producer's count is never less than
the occupancy and never more than C, the consumer's never more than the occupancy. -/
def Obligations.StaleViewsAreSafe : Prop :=
  ∀ (p : FifoParams) (f : Fifo), f.Inv p →
    f.occupancy p ≤ f.cntP p ∧ f.cntP p ≤ p.cap ∧ f.cntC p ≤ f.occupancy p ∧ f.occupancy p ≤ p.cap

/-- 20 section 2 (derived there from R41, R48, R87): when both halves fire, they use different slots. -/
def Obligations.FiringHalvesUseDifferentSlots : Prop :=
  ∀ (p : FifoParams) (f : Fifo) (d : Byte), elaborates p = true → f.Inv p →
    f.pushFire p (Ports.pushpop d) = true → f.popFire p (Ports.pushpop d) = true → f.wslot p ≠ f.rslot p

/-- 40 section 6, 70 section 2 (derived there): a core is a first-in first-out queue. From a state that meets the
invariant every command completes and keeps it; a firing pop returns the oldest byte and removes it, a firing push
appends D, RESET empties. -/
def Obligations.CoreIsFirstInFirstOutQueue : Prop :=
  ∀ (i : Instr) (s : State) (p : FifoParams) (f : Fifo), paramsOf s.cfg s.sel = p → s.fifo s.sel = f →
    elaborates p = true → f.Inv p →
    ∃ g o, exec i s = .next (s.setFifo s.sel g o) ∧ g.Inv p ∧
      (o.popOk = true → ∃ b, o.popData = some b ∧ (f.contents p).head? = some (some b)) ∧
      (o.popOk = false → o.popData = none) ∧
      (i = .reset → g.contents p = []) ∧
      (i ≠ .reset → g.contents p =
        (if o.popOk then (f.contents p).tail else f.contents p) ++
        (if o.pushOk then [operandOf i] else []))

/-- 40 section 6 (derived there): over any run of commands without RESET from an empty core that meets the invariant, the
bytes popped, followed by the bytes still held, are exactly the bytes pushed, in order. -/
def Obligations.PopsReturnPushesInOrder : Prop :=
  ∀ (is : List Instr) (s : State) (p : FifoParams), paramsOf s.cfg s.sel = p → elaborates p = true →
    (s.fifo s.sel).Inv p → (s.fifo s.sel).contents p = [] → .reset ∉ is →
    ∃ pushed popped t, execTrace is s = some (pushed, popped, t) ∧
      pushed.map some = popped.map some ++ (t.fifo s.sel).contents p

/-- 40 section 6 (derived there): after a RESET, C pushes in a row all fire, the next returns FULL, and the occupancy is
C. -/
def Obligations.CapacityBoundAfterReset : Prop :=
  ∀ (s : State) (p : FifoParams) (ds : List Byte) (d : Byte), paramsOf s.cfg s.sel = p → elaborates p = true →
    (s.fifo s.sel).wr = 0 → (s.fifo s.sel).rd = 0 → (s.fifo s.sel).wsync = List.replicate p.syncStages 0 →
    (s.fifo s.sel).rsync = List.replicate p.syncStages 0 → ds.length = p.cap →
    ∃ t u, execTrace (ds.map .push) s = some (ds, [], t) ∧ (t.fifo s.sel).occupancy p = p.cap ∧
      exec (.push d) t = .next u ∧ (u.out s.sel).pushRes = some .full ∧ (u.fifo s.sel).occupancy p = p.cap

/-- 70 section 3 (D7, D10): from an empty core whose views lag nothing, a byte pushed in cycle t is returned by a POP in
cycle t + 1 + n exactly when n ≥ S, the cycles between being NOPs; before that the POP returns EMPTY. -/
def Obligations.PushedByteIsPoppableAfterLag : Prop :=
  ∀ (s : State) (p : FifoParams) (f : Fifo) (d : Byte) (n : Nat), paramsOf s.cfg s.sel = p → s.fifo s.sel = f →
    elaborates p = true → f.WellFormed p → f.Settled → f.wr = f.rd →
    ∃ t u, execAll (.push d :: List.replicate n .nop) s = .next t ∧ exec .pop t = .next u ∧
      (u.out s.sel).popData = (if p.syncStages ≤ n then some d else none) ∧
      (u.out s.sel).popRes = some (if p.syncStages ≤ n then .ok else .empty)

/-! ### The machine: reset, steps, invariants (70) -/

/-- 70 section 1, 10 section 4 (D3; the default configuration is the model's choice, log 2): the fresh machine of every
configuration that elaborates meets the invariant, State.reset among them. -/
def Obligations.FreshMachineMeetsInvariant : Prop :=
  State.reset.Inv ∧ ∀ (c : Config) (l : List Input), configRefusal c = none → (State.fresh c l).Inv

/-- 70 section 2, 20 section 2, 42 section 5 (derived there): every step keeps the invariant, for the bare core, the
Channel Pair and the Byte Pump, for every configuration and input. -/
def Obligations.EveryStepKeepsInvariant : Prop :=
  ∀ s t : State, s.Inv → step s = .next t → t.Inv

/-- 70 section 2 (derived there; D30): in a state that meets the invariant no step faults; with an input word left, it
gives a next state. -/
def Obligations.InvariantStatesNeverFault : Prop :=
  ∀ s : State, s.Inv → Safe s ∧ (s.stim ≠ [] → ∃ t, step s = .next t)

/-- 00 section 6, 30 section 2 (D1, D12; the stimulus in State is the model's, log 1): when the next input word of an
elaborated bare core decodes to a command, the step is that command's exec on the state with the word consumed. -/
def Obligations.StepRunsTheDecodedCommand : Prop :=
  ∀ (s : State) (i : Input) (rest : List Input), s.stim = i :: rest → s.cfg.block = .core →
    elaborates s.cfg.core = true →
    step s = exec (decode i.cmd) { s with sel := .single, stim := rest }

/-- 40 section 6 (D22; log 1): a step consumes exactly the next input and never changes the configuration; with no input
left it is refused (the model's choice, log 1). -/
def Obligations.StepConsumesExactlyOneInput : Prop :=
  (∀ s t : State, step s = .next t → ∃ i, s.stim = i :: t.stim ∧ t.cfg = s.cfg) ∧
  (∀ s : State, s.stim = [] → step s = .refused .stimulusEnded)

/-- 10 section 2 (R28 in part; the recorded outputs are the model's own fields, log 5): no flag survives a cycle: the
outputs recorded of the last cycle have no influence on any register after the next. -/
def Obligations.RecordedOutputsInfluenceNothing : Prop :=
  ∀ (s t : State) (a b c : PortOut) (l : LineOut), step s = .next t →
    ∃ t', step { s with coreOut := a, inboundOut := b, outboundOut := c, lineOut := l } = .next t' ∧
      t'.core = t.core ∧ t'.inbound = t.inbound ∧ t'.outbound = t.outbound ∧ t'.pump = t.pump ∧
      t'.stim = t.stim ∧ t'.cfg = t.cfg ∧ t'.sel = t.sel

/-! ### The Channel Pair (41) -/

/-- 41 R112, 10 R39: the cores of a Channel Pair driven directly do not reference each other: in a cycle without reset
each ends, with its outputs, as its own command leaves it, and the pump and the bare core stay. -/
def Obligations.PairCoresAreNotCoupled : Prop :=
  ∀ (s u v : State) (i : Input) (rest : List Input), s.stim = i :: rest → s.cfg.block = .channelPair →
    decode i.cmd ≠ .reset → decode i.cmdOut ≠ .reset →
    elaborates s.cfg.inbound = true → elaborates s.cfg.outbound = true →
    exec (decode i.cmd) { s with sel := .inbound } = .next u →
    exec (decode i.cmdOut) { s with sel := .outbound } = .next v →
    ∃ t, step s = .next t ∧ t.inbound = u.inbound ∧ t.inboundOut = u.inboundOut ∧ t.outbound = v.outbound ∧
      t.outboundOut = v.outboundOut ∧ t.core = s.core ∧ t.pump = s.pump

/-- 41 section on use without the pump (D33); that a RESET in either stream is the one rst is the model's choice, log 7:
it resets both cores. -/
def Obligations.OneResetResetsBothCores : Prop :=
  ∀ (s : State) (i : Input) (rest : List Input), s.stim = i :: rest → s.cfg.block = .channelPair →
    decode i.cmd = .reset ∨ decode i.cmdOut = .reset →
    elaborates s.cfg.inbound = true → elaborates s.cfg.outbound = true →
    ∃ t, step s = .next t ∧ t.inbound = s.inbound.resetRegs s.cfg.inbound ∧
      t.outbound = s.outbound.resetRegs s.cfg.outbound ∧ t.core = s.core ∧ t.pump = s.pump

/-! ### The Byte Pump (42) -/

/-- 42 section 2, IDLE (D31): with a byte ready it is taken into rx_hold, else the side stays idle. out_q, xstate, the drop
counters and inbound stay, and nothing is pushed into outbound. -/
def Obligations.PumpIdleTakesReadyByte : Prop :=
  ∀ (s : State) (i : Input) (rest : List Input), s.Inv → s.stim = i :: rest → s.cfg.block = .bytePump →
    i.rst = false → s.pump.inSt = .idle →
    ∃ t, step s = .next t ∧ t.inbound = s.inbound ∧ t.outbound.storage = s.outbound.storage ∧
      t.outbound.wr = s.outbound.wr ∧ t.pump.outQ = s.pump.outQ ∧ t.pump.xstate = s.pump.xstate ∧
      t.pump.rxDropCnt = s.pump.rxDropCnt ∧ t.pump.txDropCnt = s.pump.txDropCnt ∧
      ((decodeLine i.line).rxReady = true →
        t.lineOut.rxTake = true ∧ t.pump.rxHold = (decodeLine i.line).rxData ∧ t.pump.inSt = .byteAvailable) ∧
      ((decodeLine i.line).rxReady = false →
        t.lineOut.rxTake = false ∧ t.pump.rxHold = s.pump.rxHold ∧ t.pump.inSt = .idle)

/-- 42 R125 BYTE_AVAILABLE: the side attempts a push of rx_hold into inbound; if it is refused the byte is dropped and
counted (saturating); the next state is DELIVERED, and no other byte is taken; xstate, out_q, rx_hold, tx_drop_cnt and
what outbound was pushed stay. Under 42 section 1 the push never fails, which the statement says of states that meet the
invariant. -/
def Obligations.PumpPushesHeldByte : Prop :=
  ∀ (s : State) (i : Input) (rest : List Input), s.stim = i :: rest → s.cfg.block = .bytePump →
    i.rst = false → s.pump.inSt = .byteAvailable →
    (∀ t, step s = .next t →
      t.inboundOut.pushRes = some (if s.inbound.fullO s.cfg.inbound then .full else .ok) ∧
      (s.inbound.fullO s.cfg.inbound = false →
        Memory.read t.inbound.storage (s.inbound.wr % s.cfg.inbound.cap) = some s.pump.rxHold ∧
        t.pump.rxDropCnt = s.pump.rxDropCnt) ∧
      (s.inbound.fullO s.cfg.inbound = true → t.inbound.storage = s.inbound.storage ∧
        t.pump.rxDropCnt =
          if s.pump.rxDropCnt = 2 ^ s.cfg.dropW - 1 then s.pump.rxDropCnt else s.pump.rxDropCnt + 1) ∧
      t.pump.inSt = .delivered ∧ t.lineOut.rxTake = false ∧ t.pump.xstate = s.pump.xstate ∧
      t.pump.outQ = s.pump.outQ ∧ t.pump.rxHold = s.pump.rxHold ∧ t.pump.txDropCnt = s.pump.txDropCnt ∧
      t.inbound.rd = s.inbound.rd ∧ t.outbound.storage = s.outbound.storage ∧ t.outbound.wr = s.outbound.wr) ∧
    (s.Inv → ∃ t, step s = .next t ∧ t.inboundOut.pushOk = true ∧ t.pump.rxDropCnt = s.pump.rxDropCnt ∧
      t.inbound.contents s.cfg.inbound = [some s.pump.rxHold])

/-- 42 section 2, DELIVERED, and section 5 (D16, D21): the one byte of inbound is popped, goes once through XFORM, and
its outputs, if any, become out_q in EMIT. rx_hold, the drop counters and what the two cores were pushed stay. -/
def Obligations.PumpDeliversByteToTransform : Prop :=
  ∀ (s : State) (i : Input) (rest : List Input), s.Inv → s.stim = i :: rest → s.cfg.block = .bytePump →
    i.rst = false → s.pump.inSt = .delivered →
    ∃ t b, step s = .next t ∧ s.inbound.contents s.cfg.inbound = [some b] ∧ t.inboundOut.popData = some b ∧
      t.inbound.contents s.cfg.inbound = [] ∧ t.lineOut.rxTake = false ∧
      t.pump.xstate = (applyXform s.cfg s.pump.xstate b).1 ∧ t.pump.outQ = (applyXform s.cfg s.pump.xstate b).2 ∧
      (t.pump.outQ = [] → t.pump.inSt = .idle) ∧ (t.pump.outQ ≠ [] → t.pump.inSt = .emit) ∧
      t.pump.rxHold = s.pump.rxHold ∧ t.pump.rxDropCnt = s.pump.rxDropCnt ∧ t.pump.txDropCnt = s.pump.txDropCnt ∧
      t.inbound.storage = s.inbound.storage ∧ t.inbound.wr = s.inbound.wr ∧
      t.outbound.storage = s.outbound.storage ∧ t.outbound.wr = s.outbound.wr

/-- 42 section 2, EMIT (D16): the head of out_q is pushed into outbound, or dropped and counted (saturating) if outbound
is full; the side is idle again after the last byte. xstate, rx_hold, rx_drop_cnt and inbound stay. -/
def Obligations.PumpEmitsOneBytePerCycle : Prop :=
  ∀ (s : State) (i : Input) (rest : List Input) (d : Byte) (ds : List Byte), s.Inv → s.stim = i :: rest →
    s.cfg.block = .bytePump → i.rst = false → s.pump.inSt = .emit → s.pump.outQ = d :: ds →
    ∃ t, step s = .next t ∧ t.pump.outQ = ds ∧ (ds = [] → t.pump.inSt = .idle) ∧ (ds ≠ [] → t.pump.inSt = .emit) ∧
      t.pump.xstate = s.pump.xstate ∧ t.pump.rxHold = s.pump.rxHold ∧ t.pump.rxDropCnt = s.pump.rxDropCnt ∧
      t.inbound = s.inbound ∧
      (s.outbound.occupancy s.cfg.outbound ≠ s.cfg.outbound.cap →
        t.outboundOut.pushRes = some .ok ∧ t.pump.txDropCnt = s.pump.txDropCnt ∧ t.pump.txIrqEn = true ∧
        (t.outbound.contents s.cfg.outbound).getLast? = some (some d)) ∧
      (s.outbound.occupancy s.cfg.outbound = s.cfg.outbound.cap →
        t.outboundOut.pushRes = some .full ∧ t.outbound.storage = s.outbound.storage ∧ t.outbound.wr = s.outbound.wr ∧
        t.pump.txDropCnt =
          if s.pump.txDropCnt = 2 ^ s.cfg.dropW - 1 then s.pump.txDropCnt else s.pump.txDropCnt + 1)

/-- 42 section 3 (D16, D18): a byte is written to the line exactly when the enabled transmit interrupt fires with
outbound not empty; it is the oldest byte of outbound, which is removed, and out_st shows DRAINING after exactly such a
cycle. In every other cycle tx_data is 0x00 (30 section 4) and nothing is removed. -/
def Obligations.PumpDrainsOldestByte : Prop :=
  ∀ (s : State) (i : Input) (rest : List Input), s.Inv → s.stim = i :: rest → s.cfg.block = .bytePump →
    i.rst = false →
    ∃ t, step s = .next t ∧
      (t.lineOut.txWrite = true ↔ s.pump.txIrqEn = true ∧ (decodeLine i.line).txReady = true ∧
        s.outbound.occupancy s.cfg.outbound ≠ 0) ∧
      (t.pump.outSt = .draining ↔ t.lineOut.txWrite = true) ∧
      (t.lineOut.txWrite = true →
        (s.outbound.contents s.cfg.outbound).head? = some (some t.lineOut.txData) ∧
        t.outbound.rd = (s.outbound.rd + 1) % 2 ^ s.cfg.outbound.idxW) ∧
      (t.lineOut.txWrite = false → t.lineOut.txData = 0x00 ∧ t.outbound.rd = s.outbound.rd)

/-- 42 section 3 (D19): the transmit interrupt is enabled after a cycle in which a byte was pushed into outbound, even if
the drainer found outbound empty; else it is disabled by firing on an empty outbound; else it keeps its value. -/
def Obligations.TransmitEnableSetWinsOverClear : Prop :=
  ∀ (s t : State) (i : Input) (rest : List Input), s.stim = i :: rest → s.cfg.block = .bytePump → i.rst = false →
    step s = .next t →
    (t.outboundOut.pushOk = true → t.pump.txIrqEn = true) ∧
    (t.outboundOut.pushOk = false → s.pump.txIrqEn = true → (decodeLine i.line).txReady = true →
      s.outbound.emptyO s.cfg.outbound = true → t.pump.txIrqEn = false) ∧
    (t.outboundOut.pushOk = false →
      ((decodeLine i.line).txReady = false ∨ s.outbound.emptyO s.cfg.outbound = false) →
      t.pump.txIrqEn = s.pump.txIrqEn) ∧
    (s.pump.txIrqEn = false → t.outboundOut.pushOk = false → t.pump.txIrqEn = false)

/-- 42 section 5 (derived there from R122, R128, R131, R132): no byte is stranded: with a byte in outbound the transmit
interrupt is enabled, and a cycle with the line ready writes the oldest byte. -/
def Obligations.NoByteIsStranded : Prop :=
  ∀ (s : State) (i : Input) (rest : List Input), s.Inv → s.cfg.block = .bytePump →
    0 < s.outbound.countO s.cfg.outbound →
    s.pump.txIrqEn = true ∧
    (s.stim = i :: rest → i.rst = false → (decodeLine i.line).txReady = true →
      ∃ t, step s = .next t ∧ t.lineOut.txWrite = true ∧
        (s.outbound.contents s.cfg.outbound).head? = some (some t.lineOut.txData))

/-- 42 section 4 (D20): a drop counter never wraps: only a reset cycle makes it smaller, and it never leaves its width. -/
def Obligations.DropCountersNeverWrap : Prop :=
  ∀ (s t : State) (i : Input) (rest : List Input), s.stim = i :: rest → s.cfg.block = .bytePump →
    s.pump.rxDropCnt < 2 ^ s.cfg.dropW → s.pump.txDropCnt < 2 ^ s.cfg.dropW → step s = .next t →
    t.pump.rxDropCnt < 2 ^ s.cfg.dropW ∧ t.pump.txDropCnt < 2 ^ s.cfg.dropW ∧
    (i.rst = false → s.pump.rxDropCnt ≤ t.pump.rxDropCnt ∧ t.pump.rxDropCnt ≤ s.pump.rxDropCnt + 1 ∧
      s.pump.txDropCnt ≤ t.pump.txDropCnt ∧ t.pump.txDropCnt ≤ s.pump.txDropCnt + 1) ∧
    (i.rst = true → t.pump.rxDropCnt = 0 ∧ t.pump.txDropCnt = 0)

/-- 42 section 5, pump reset (D2), with the reset values of 10 section 4 and 70 section 1 (D3, D16, D19, D20, D21): rst
resets both cores and every pump register, storage stays, and nothing is taken, written, pushed or popped, whatever the
line presents; tx_data is 0x00 (30 section 4). -/
def Obligations.PumpResetCycle : Prop :=
  ∀ (s : State) (i : Input) (rest : List Input), s.stim = i :: rest → configRefusal s.cfg = none →
    s.cfg.block = .bytePump → i.rst = true →
    ∃ t, step s = .next t ∧ t.inbound = { Fifo.fresh s.cfg.inbound with storage := s.inbound.storage } ∧
      t.outbound = { Fifo.fresh s.cfg.outbound with storage := s.outbound.storage } ∧
      t.pump.inSt = .idle ∧ t.pump.rxHold = 0x00 ∧ t.pump.outQ = [] ∧ t.pump.xstate = s.cfg.xstate0 ∧
      t.pump.outSt = .idle ∧ t.pump.txIrqEn = false ∧ t.pump.rxDropCnt = 0 ∧ t.pump.txDropCnt = 0 ∧
      t.lineOut.rxTake = false ∧ t.lineOut.txWrite = false ∧ t.lineOut.txData = 0x00 ∧
      t.inboundOut.pushOk = false ∧ t.inboundOut.popOk = false ∧ t.outboundOut.pushOk = false ∧
      t.outboundOut.popOk = false

/-- 42 section 1 and 41, port ownership (D16, D32): in a cycle without reset the pump alone drives the four ports: a push
into inbound is requested exactly in BYTE_AVAILABLE and a pop exactly in DELIVERED, a push into outbound exactly in EMIT
and a pop exactly when the enabled transmit interrupt fires with outbound not empty; where none is requested, what it
would change stays, and no other core is touched. -/
def Obligations.PumpAloneDrivesItsPorts : Prop :=
  ∀ (s t : State) (i : Input) (rest : List Input), s.stim = i :: rest → s.cfg.block = .bytePump → i.rst = false →
    step s = .next t →
    (t.inboundOut.pushRes ≠ none ↔ s.pump.inSt = .byteAvailable) ∧
    (t.inboundOut.popRes ≠ none ↔ s.pump.inSt = .delivered) ∧
    (t.outboundOut.pushRes ≠ none ↔ s.pump.inSt = .emit) ∧
    (t.outboundOut.popRes ≠ none ↔
      s.pump.txIrqEn = true ∧ (decodeLine i.line).txReady = true ∧ s.outbound.emptyO s.cfg.outbound = false) ∧
    (s.pump.inSt ≠ .byteAvailable → t.inbound.storage = s.inbound.storage ∧ t.inbound.wr = s.inbound.wr) ∧
    (s.pump.inSt ≠ .delivered → t.inbound.rd = s.inbound.rd) ∧
    (s.pump.inSt ≠ .emit → t.outbound.storage = s.outbound.storage ∧ t.outbound.wr = s.outbound.wr) ∧
    (t.outboundOut.popRes = none → t.outbound.rd = s.outbound.rd) ∧
    t.core = s.core ∧ t.coreOut = s.coreOut

/-- 40 section 1, 41, 42 section 1, 60 section 1 (D5): a block of which a core fails the elaboration check is refused with
InvalidCapacity, be it a bare core, a Channel Pair or a Byte Pump. That a state which holds such a configuration answers
every step with that refusal is the model's choice (log 13). -/
def Obligations.InvalidCapacityRefusesEveryStep : Prop :=
  ∀ c : Config,
    (c.block = .core ∧ elaborates c.core = false) ∨
      (c.block ≠ .core ∧ (elaborates c.inbound = false ∨ elaborates c.outbound = false)) →
    (∀ l, create c l = .error .invalidCapacity) ∧
    ∀ s : State, s.cfg = c → s.stim ≠ [] → step s = .refused .invalidCapacity

/-- 42 sections 2 to 5 (D16, D18, D20, D21, D31), for a line that keeps its duties (42 section 4; the line's own part of a
cycle is the model's, log 17): over any run without reset from a state that meets the invariant, the bytes taken are the
line's own, each once and in order; all but the one still pending went through XFORM in order, once; and the bytes the
line accepted, followed by those on their way, are the transformed bytes in order, but for the drops, which tx_drop_cnt
counts exactly until it saturates. -/
def Obligations.LineBytesComeBackTransformed : Prop :=
  ∀ (bytes : List Byte) (cs : List LineCycle) (last : LineCycle) (s t : State), s.Inv → s.cfg.block = .bytePump →
    (∀ i ∈ s.stim.take cs.length, i.rst = false) → lineRun cs s = some t → LineDuties bytes (cs ++ [last]) →
    (cs.headD last).taken ≤ last.taken ∧
    ∃ done out : List Byte,
      s.pending ++
          ((bytes.drop (cs.headD last).taken).take (last.taken - (cs.headD last).taken)).map some =
        done.map some ++ t.pending ∧
      t.pump.xstate = (xformAll s.cfg s.pump.xstate done).1 ∧
      last.accepted = (cs.headD last).accepted ++ out ∧
      (out.map some ++ t.outgoing).Sublist (s.outgoing ++ (xformAll s.cfg s.pump.xstate done).2.map some) ∧
      (t.pump.txDropCnt + 1 < 2 ^ s.cfg.dropW →
        (out.map some ++ t.outgoing).length + t.pump.txDropCnt =
          (s.outgoing ++ (xformAll s.cfg s.pump.xstate done).2.map some).length + s.pump.txDropCnt)
end

