-- ==== Sys2Proof/Laws/State.lean ====
section
/-! SUPPORT. One lemma per field per update of a state and of a core. -/

namespace Sys2Proof.Machine

variable (s : State) (k : CoreSel) (f : Fifo) (o : PortOut) (p : FifoParams) (d : Byte) (pre : Fifo)

@[simp] theorem State.setFifo_cfg : (s.setFifo k f o).cfg = s.cfg := by cases k <;> rfl
@[simp] theorem State.setFifo_pump : (s.setFifo k f o).pump = s.pump := by cases k <;> rfl
@[simp] theorem State.setFifo_sel : (s.setFifo k f o).sel = s.sel := by cases k <;> rfl
@[simp] theorem State.setFifo_stim : (s.setFifo k f o).stim = s.stim := by cases k <;> rfl
@[simp] theorem State.setFifo_lineOut : (s.setFifo k f o).lineOut = s.lineOut := by cases k <;> rfl
@[simp] theorem State.fifo_setFifo : (s.setFifo k f o).fifo k = f := by cases k <;> rfl
@[simp] theorem State.out_setFifo : (s.setFifo k f o).out k = o := by cases k <;> rfl

theorem State.fifo_setFifo_other {k j : CoreSel} (h : j ≠ k) : (s.setFifo k f o).fifo j = s.fifo j := by
  cases k <;> cases j <;> simp_all [State.setFifo, State.fifo]

theorem State.out_setFifo_other {k j : CoreSel} (h : j ≠ k) : (s.setFifo k f o).out j = s.out j := by
  cases k <;> cases j <;> simp_all [State.setFifo, State.out]

@[simp] theorem Fifo.shiftViews_storage : (f.shiftViews p pre).storage = pre.storage := rfl
@[simp] theorem Fifo.shiftViews_wr : (f.shiftViews p pre).wr = pre.wr := rfl
@[simp] theorem Fifo.shiftViews_rd : (f.shiftViews p pre).rd = pre.rd := rfl
@[simp] theorem Fifo.shiftViews_wsync : (f.shiftViews p pre).wsync = shiftPipe p f.wr f.wsync := rfl
@[simp] theorem Fifo.shiftViews_rsync : (f.shiftViews p pre).rsync = shiftPipe p f.rd f.rsync := rfl

@[simp] theorem Fifo.pushByte_storage :
    (f.pushByte p d pre).storage = Memory.write pre.storage (f.wslot p) d := rfl
@[simp] theorem Fifo.pushByte_wr : (f.pushByte p d pre).wr = addIdx p.idxW f.wr 1 := rfl
@[simp] theorem Fifo.pushByte_rd : (f.pushByte p d pre).rd = pre.rd := rfl
@[simp] theorem Fifo.pushByte_wsync : (f.pushByte p d pre).wsync = pre.wsync := rfl
@[simp] theorem Fifo.pushByte_rsync : (f.pushByte p d pre).rsync = pre.rsync := rfl

@[simp] theorem Fifo.popByte_storage : (f.popByte p pre).storage = pre.storage := rfl
@[simp] theorem Fifo.popByte_wr : (f.popByte p pre).wr = pre.wr := rfl
@[simp] theorem Fifo.popByte_rd : (f.popByte p pre).rd = addIdx p.idxW f.rd 1 := rfl
@[simp] theorem Fifo.popByte_wsync : (f.popByte p pre).wsync = pre.wsync := rfl
@[simp] theorem Fifo.popByte_rsync : (f.popByte p pre).rsync = pre.rsync := rfl

@[simp] theorem Fifo.resetRegs_storage : (f.resetRegs p).storage = f.storage := rfl
@[simp] theorem Fifo.resetRegs_wr : (f.resetRegs p).wr = 0 := rfl
@[simp] theorem Fifo.resetRegs_rd : (f.resetRegs p).rd = 0 := rfl
@[simp] theorem Fifo.resetRegs_wsync : (f.resetRegs p).wsync = List.replicate p.syncStages 0 := rfl
@[simp] theorem Fifo.resetRegs_rsync : (f.resetRegs p).rsync = List.replicate p.syncStages 0 := rfl

end Sys2Proof.Machine
end

