-- ==== Sys2Proof/Laws/Cycle.lean ====
section
/-! SUPPORT. Once per shared operation, everything it can do: an edge, a cycle, a command, a pump cycle, a step. -/

namespace Sys2Proof.Machine

open Sys2Proof

section Edge

variable (p : FifoParams) (io : Ports) (f : Fifo)

@[simp] theorem Fifo.edge_storage : (f.edge p io).storage =
    if f.pushFire p io then Memory.write f.storage (f.wslot p) io.pushData else f.storage := by
  unfold Fifo.edge; dsimp only; split <;> split <;> simp [*]

@[simp] theorem Fifo.edge_wr : (f.edge p io).wr =
    if f.pushFire p io then addIdx p.idxW f.wr 1 else f.wr := by
  unfold Fifo.edge; dsimp only; split <;> split <;> simp [*]

@[simp] theorem Fifo.edge_rd : (f.edge p io).rd =
    if f.popFire p io then addIdx p.idxW f.rd 1 else f.rd := by
  unfold Fifo.edge; dsimp only; split <;> split <;> simp [*]

@[simp] theorem Fifo.edge_wsync : (f.edge p io).wsync = shiftPipe p f.wr f.wsync := by
  unfold Fifo.edge; dsimp only; split <;> split <;> simp [*]

@[simp] theorem Fifo.edge_rsync : (f.edge p io).rsync = shiftPipe p f.rd f.rsync := by
  unfold Fifo.edge; dsimp only; split <;> split <;> simp [*]

end Edge

/-- What `pop_data` can be. -/
theorem Fifo.popData_cases {p : FifoParams} {io : Ports} {f : Fifo} {r : Except Fault (Option Byte)}
    (h : f.popData p io = r) :
    (f.popFire p io = false ∧ r = .ok none) ∨
    (∃ b, f.popFire p io = true ∧ Memory.read f.storage (f.rslot p) = some b ∧ r = .ok (some b)) ∨
    (f.popFire p io = true ∧ Memory.read f.storage (f.rslot p) = none ∧ r = .error .unwrittenSlot) := by
  subst h
  unfold Fifo.popData
  by_cases hp : f.popFire p io = true
  · cases hr : Memory.read f.storage (f.rslot p) <;> simp [hp]
  · simp [hp]

/-- What one cycle of a core can do when it gives registers and outputs. -/
theorem Fifo.cycle_cases {p : FifoParams} {io : Ports} {f g : Fifo} {o : PortOut}
    (h : f.cycle p io = .ok (g, o)) :
    (io.rst = true ∧ g = f.resetRegs p ∧ o = f.resetOut p) ∨
    (io.rst = false ∧ f.popFire p io = false ∧ g = f.edge p io ∧ o = f.portOut p io none) ∨
    (∃ b, io.rst = false ∧ f.popFire p io = true ∧ Memory.read f.storage (f.rslot p) = some b ∧
      g = f.edge p io ∧ o = f.portOut p io (some b)) := by
  unfold Fifo.cycle at h
  cases hr : io.rst
  · rw [if_neg (by simp [hr])] at h
    obtain ⟨hp, hd⟩ | ⟨b, hp, hm, hd⟩ | ⟨-, -, hd⟩ := Fifo.popData_cases (rfl : f.popData p io = _) <;>
      rw [hd] at h <;> simp_all
  · simp_all

/-- A cycle of a core fails only by a firing pop of a slot nothing has written. -/
theorem Fifo.cycle_error {p : FifoParams} {io : Ports} {f : Fifo} {r : Fault} (h : f.cycle p io = .error r) :
    r = .unwrittenSlot ∧ io.rst = false ∧ f.popFire p io = true ∧
      Memory.read f.storage (f.rslot p) = none := by
  unfold Fifo.cycle at h
  cases hr : io.rst
  · rw [if_neg (by simp [hr])] at h
    obtain ⟨hp, hd⟩ | ⟨b, hp, hm, hd⟩ | ⟨hp, hm, hd⟩ := Fifo.popData_cases (rfl : f.popData p io = _) <;>
      rw [hd] at h <;> simp_all
  · simp_all

/-- What a command can do when it gives a next state: one cycle of the selected core, and nothing else. -/
theorem State.command_cases {io : Ports} {s t : State} (h : s.command io = .next t) :
    elaborates (paramsOf s.cfg s.sel) = true ∧
    ∃ f o, (s.fifo s.sel).cycle (paramsOf s.cfg s.sel) io = .ok (f, o) ∧ t = s.setFifo s.sel f o := by
  unfold State.command at h
  split at h
  · next he =>
    split at h
    · next f o hc => exact ⟨he, f, o, hc, by cases h; rfl⟩
    · cases h
  · cases h

/-- Every command is a cycle of the selected core with the ports it drives. -/
theorem exec_eq_command (i : Instr) (s : State) : exec i s = s.command (Ports.ofInstr i) := by
  cases i <;> rfl

/-- The encoding is the port bundle (D12): the canonical word's bits are the ports the command's meaning drives. -/
theorem exec_eq_command_of_word (i : Instr) (s : State) : exec i s = s.command (Ports.ofWord (encode i)) := by
  have hpush : ∀ d : Byte, Ports.push d = Ports.ofWord (encode (.push d)) := by decide
  have hpushpop : ∀ d : Byte, Ports.pushpop d = Ports.ofWord (encode (.pushpop d)) := by decide
  cases i with
  | nop => rfl
  | push d => rw [← hpush]; rfl
  | pop => rfl
  | pushpop d => rw [← hpushpop]; rfl
  | reset => rfl

theorem andThen_next {r : Host.Outcome State Fault Refusal} {k : State → Host.Outcome State Fault Refusal} {t : State}
    (h : andThen r k = .next t) : ∃ u, r = .next u ∧ k u = .next t := by
  cases r with
  | next u => exact ⟨u, rfl, h⟩
  | fault e => cases h
  | refused e => cases h

/-- What a pump cycle with rst = 0 can do when it gives a next state. -/
theorem pumpRun_cases {l : LineIn} {s t : State} (h : pumpRun l s = .next t) :
    ¬(s.pump.inSt = .emit ∧ s.pump.outQ = []) ∧
    ∃ fi oi fo oo, s.inbound.cycle s.cfg.inbound s.pump.inPorts = .ok (fi, oi) ∧
      s.outbound.cycle s.cfg.outbound (s.pump.outPorts l (s.outbound.emptyO s.cfg.outbound)) = .ok (fo, oo) ∧
      t = { s with
        inbound := fi, inboundOut := oi, outbound := fo, outboundOut := oo,
        pump := s.pump.edge s.cfg l (s.outbound.emptyO s.cfg.outbound) oi oo,
        lineOut := s.pump.lineOut l oo } := by
  unfold pumpRun at h
  split at h
  · cases h
  · next hq =>
    refine ⟨hq, ?_⟩
    split at h
    · next fi oi fo oo hi ho => exact ⟨fi, oi, fo, oo, hi, ho, by cases h; rfl⟩
    · cases h
    · cases h

section PumpEdge

variable (c : Config) (l : LineIn) (e : Bool) (oi oo : PortOut) (q : Pump)

@[simp] theorem Pump.edge_inSt : (q.edge c l e oi oo).inSt = (q.inboundSide c l oi oo).inSt := rfl
@[simp] theorem Pump.edge_rxHold : (q.edge c l e oi oo).rxHold = (q.inboundSide c l oi oo).rxHold := rfl
@[simp] theorem Pump.edge_outQ : (q.edge c l e oi oo).outQ = (q.inboundSide c l oi oo).outQ := rfl
@[simp] theorem Pump.edge_xstate : (q.edge c l e oi oo).xstate = (q.inboundSide c l oi oo).xstate := rfl
@[simp] theorem Pump.edge_rxDropCnt : (q.edge c l e oi oo).rxDropCnt = (q.inboundSide c l oi oo).rxDropCnt := rfl
@[simp] theorem Pump.edge_txDropCnt : (q.edge c l e oi oo).txDropCnt = (q.inboundSide c l oi oo).txDropCnt := rfl
@[simp] theorem Pump.edge_outSt : (q.edge c l e oi oo).outSt = q.outStNext l e := rfl
@[simp] theorem Pump.edge_txIrqEn : (q.edge c l e oi oo).txIrqEn = q.txIrqNext l e oo := rfl

end PumpEdge

/-- What a cycle of a core without reset can do when it gives registers and outputs: an edge and its ports. -/
theorem Fifo.cycle_edge {p : FifoParams} {io : Ports} {f g : Fifo} {o : PortOut} (hr : io.rst = false)
    (h : f.cycle p io = .ok (g, o)) : g = f.edge p io ∧ ∃ data, o = f.portOut p io data := by
  obtain ⟨h1, -⟩ | ⟨-, -, hg, ho⟩ | ⟨b, -, -, -, hg, ho⟩ := Fifo.cycle_cases h
  · simp [hr] at h1
  · exact ⟨hg, _, ho⟩
  · exact ⟨hg, _, ho⟩

/-- What a step can do when it gives a next state: it consumes one input and runs one cycle of the elaborated block. -/
theorem step_cases {s t : State} (h : step s = .next t) :
    ∃ i rest, s.stim = i :: rest ∧ configRefusal s.cfg = none ∧
      ((s.cfg.block = .core ∧ coreCycle i { s with stim := rest } = .next t) ∨
       (s.cfg.block = .channelPair ∧ pairCycle i { s with stim := rest } = .next t) ∨
       (s.cfg.block = .bytePump ∧ pumpCycle i.rst (decodeLine i.line) { s with stim := rest } = .next t)) := by
  unfold step at h
  split at h
  · cases h
  · next i rest hs =>
    refine ⟨i, rest, hs, ?_⟩
    unfold runCycle at h
    split at h
    · cases h
    · next hc =>
      refine ⟨hc, ?_⟩
      split at h
      · next hb => exact .inl ⟨hb, h⟩
      · next hb => exact .inr (.inl ⟨hb, h⟩)
      · next hb => exact .inr (.inr ⟨hb, h⟩)

end Sys2Proof.Machine
end

