-- ==== Sys2Proof/Laws/Index.lean ====
section
/-! SUPPORT. W-bit index arithmetic as natural-number arithmetic (spec 00 R13, 40 R100). -/

namespace Sys2Proof.Machine

theorem addIdx_eq_mod (w a b : Nat) : addIdx w a b = (a + b) % 2 ^ w := by
  simp [addIdx, Nat.add_mod]

theorem addIdx_lt (w a b : Nat) : addIdx w a b < 2 ^ w := BitVec.isLt _

theorem subIdx_lt (w a b : Nat) : subIdx w a b < 2 ^ w := BitVec.isLt _

theorem subIdx_of_lt {w a b : Nat} (ha : a < 2 ^ w) (hb : b < 2 ^ w) :
    subIdx w a b = if b ≤ a then a - b else a + 2 ^ w - b := by
  unfold subIdx
  rw [BitVec.toNat_sub, BitVec.toNat_ofNat, BitVec.toNat_ofNat, Nat.mod_eq_of_lt ha, Nat.mod_eq_of_lt hb]
  split
  · rw [show 2 ^ w - b + a = 2 ^ w + (a - b) by omega, Nat.add_mod_left, Nat.mod_eq_of_lt (by omega)]
  · rw [Nat.mod_eq_of_lt (by omega)]; omega

theorem addIdx_one_of_lt {w a : Nat} (ha : a < 2 ^ w) :
    addIdx w a 1 = if a + 1 = 2 ^ w then 0 else a + 1 := by
  rw [addIdx_eq_mod]
  split
  · next h => rw [h, Nat.mod_self]
  · exact Nat.mod_eq_of_lt (by omega)

@[simp] theorem subIdx_self (w a : Nat) : subIdx w a a = 0 := by simp [subIdx]

end Sys2Proof.Machine
end

