-- ==== Sys2Proof/Laws/Line.lean ====
section
/-! SUPPORT. What one cycle more of a line run, of the line's duties and of the transform over a sequence says. -/

namespace Sys2Proof.Machine

open Sys2Proof

@[simp] theorem lineRun_nil (s : State) : lineRun [] s = some s := rfl

/-- What a line run that starts with the cycle c can do. -/
theorem lineRun_cons_cases {c : LineCycle} {cs : List LineCycle} {s t : State} (h : lineRun (c :: cs) s = some t) :
    ∃ i rest u, s.stim = i :: rest ∧ step s = .next u ∧ decodeLine i.line = c.drive ∧ u.lineOut = c.answer ∧
      lineRun cs u = some t := by
  unfold lineRun at h
  split at h
  · next i rest u hi hs =>
    split at h
    · next hc => exact ⟨i, rest, u, hi, hs, hc.1, hc.2, h⟩
    · cases h
  · cases h
  · cases h
  · cases h

/-- The duties over two cycles and more are those of the first pair and those of the rest. -/
theorem LineDuties_cons_cons {bytes : List Byte} {c c' : LineCycle} {cs : List LineCycle} :
    LineDuties bytes (c :: c' :: cs) ↔
      (lineValid bytes c ∧ lineReadyIsTrue c) ∧ (lineAdvances c c' ∧ lineHolds c c' ∧ lineAccepts c c') ∧
        LineDuties bytes (c' :: cs) := by
  simp only [LineDuties, List.forall_mem_cons, List.isChain_cons_cons]
  exact ⟨fun h => ⟨h.1.1, h.2.1, h.1.2, h.2.2⟩, fun h => ⟨⟨h.1, h.2.2.1⟩, h.2.1, h.2.2.2⟩⟩

theorem xformAll_append (c : Config) (xs : XState) (a b : List Byte) :
    xformAll c xs (a ++ b) = ((xformAll c (xformAll c xs a).1 b).1,
      (xformAll c xs a).2 ++ (xformAll c (xformAll c xs a).1 b).2) := by
  induction a generalizing xs with
  | nil => rfl
  | cons x a ih => simp only [List.cons_append, xformAll, ih, List.append_assoc]

end Sys2Proof.Machine
end

