-- ==== Sys2Proof/Laws/Memory.lean ====
section
/-! SUPPORT. The laws of a core's storage: what a slot reads after a write, and that a write keeps the canonical form. -/

namespace Sys2Proof.Machine

@[simp] theorem Memory.read_nil (k : Nat) : Memory.read [] k = none := rfl

theorem Memory.read_cons (a : Nat) (b : Byte) (m : Memory) (j : Nat) :
    Memory.read ((a, b) :: m) j = if j = a then some b else Memory.read m j := by
  simp only [Memory.read, eq_comm]

theorem Memory.read_write (m : Memory) (k : Nat) (v : Byte) (j : Nat) :
    Memory.read (Memory.write m k v) j = if j = k then some v else Memory.read m j := by
  induction m with
  | nil => exact Memory.read_cons k v [] j
  | cons x m ih =>
    obtain ⟨a, b⟩ := x
    simp only [Memory.write]
    split
    · exact Memory.read_cons k v _ j
    · split
      · next h => subst h; by_cases hj : j = k <;> simp [Memory.read_cons, hj]
      · next h =>
        by_cases ha : j = a
        · subst ha; simp [Memory.read_cons, Ne.symm h]
        · simp [Memory.read_cons, ha, ih]

@[simp] theorem Memory.read_write_same (m : Memory) (k : Nat) (v : Byte) :
    Memory.read (Memory.write m k v) k = some v := by simp [Memory.read_write]

theorem Memory.read_write_other (m : Memory) {k j : Nat} (v : Byte) (h : j ≠ k) :
    Memory.read (Memory.write m k v) j = Memory.read m j := by simp [Memory.read_write, h]

theorem Memory.mem_write {m : Memory} {k : Nat} {v : Byte} {x : Host.Cell}
    (h : x ∈ Memory.write m k v) : x = (k, v) ∨ x ∈ m := by
  induction m with
  | nil => simpa [Memory.write] using h
  | cons y m ih =>
    obtain ⟨a, b⟩ := y
    simp only [Memory.write] at h
    split at h
    · simpa using h
    · split at h
      · rcases List.mem_cons.1 h with h | h
        · exact .inl h
        · exact .inr (List.mem_cons_of_mem _ h)
      · rcases List.mem_cons.1 h with h | h
        · exact .inr (h ▸ List.mem_cons_self)
        · exact (ih h).imp id (List.mem_cons_of_mem _)

theorem Memory.wf_nil : Memory.wf [] := List.Pairwise.nil

/-- Writing keeps the canonical form (the only operation that changes storage). -/
theorem Memory.wf_write {m : Memory} (k : Nat) (v : Byte) (h : Memory.wf m) :
    Memory.wf (Memory.write m k v) := by
  induction m with
  | nil => simp [Memory.write, Memory.wf]
  | cons y m ih =>
    obtain ⟨a, b⟩ := y
    obtain ⟨hy, hm⟩ := List.pairwise_cons.1 h
    simp only [Memory.write]
    split
    · next hk =>
      refine List.pairwise_cons.2 ⟨fun x hx => ?_, h⟩
      rcases List.mem_cons.1 hx with rfl | hx
      · exact hk
      · exact Nat.lt_trans hk (hy x hx)
    · split
      · next hk => subst hk; exact List.pairwise_cons.2 ⟨hy, hm⟩
      · next hk hne =>
        refine List.pairwise_cons.2 ⟨fun x hx => ?_, ih hm⟩
        rcases Memory.mem_write hx with rfl | hx
        · show a < k
          omega
        · exact hy x hx

end Sys2Proof.Machine
end

