-- ==== Sys2Proof/Laws/PerInstr.lean ====
section
/-! SUPPORT. A statement for every command, made per constructor: a command's canonical word matches its own row of the
opcode table (spec 30 R64, R71). -/

namespace Sys2Proof.Laws

open Sys2Proof

/-- The command's canonical word hits the table's row of its mnemonic, no other row, and the command is well formed. -/
def CanonicalRow.Statement (i : Instr) : Prop :=
  i.wf = true ∧ (opcodeTable.filter fun r => r.hits (encode i)).map OpcodeRow.mnemonic = [i.mnemonic]

theorem CanonicalRow.nop : CanonicalRow.Statement .nop := ⟨rfl, by decide⟩
theorem CanonicalRow.push (d : Byte) : CanonicalRow.Statement (.push d) :=
  ⟨rfl, by revert d; decide⟩
theorem CanonicalRow.pop : CanonicalRow.Statement .pop := ⟨rfl, by decide⟩
theorem CanonicalRow.pushpop (d : Byte) : CanonicalRow.Statement (.pushpop d) :=
  ⟨rfl, by revert d; decide⟩
theorem CanonicalRow.reset : CanonicalRow.Statement .reset := ⟨rfl, by decide⟩

end Sys2Proof.Laws
end

