-- ==== Sys2Proof/Tests/Slice0.lean ====
section
/-! SUPPORT. Tests on fixed values, their expected results taken from spec/95_test_vectors.md and spec/30_encoding.md (the
source is named at each), the WellFormed smoke, and for every statement with hypotheses a witness that meets them. -/

namespace Sys2Proof.Tests

open Sys2Proof Sys2Proof.Machine

/-! ### Helpers -/

/-- The next state, if there is one. -/
def after : Host.Outcome State Fault Refusal → Option State
  | .next t => some t
  | .fault _ => none
  | .refused _ => none

/-- The fault, if there is one. -/
def faultOf : Host.Outcome State Fault Refusal → Option Fault
  | .next _ => none
  | .fault r => some r
  | .refused _ => none

/-- The refusal, if there is one. -/
def refusalOf : Host.Outcome State Fault Refusal → Option Refusal
  | .next _ => none
  | .fault _ => none
  | .refused r => some r

/-- A bare core with the given parameters and registers, and the given command words to come. -/
def bare (p : FifoParams) (f : Fifo) (ws : List CmdWord := []) : State :=
  { State.fresh { Config.default with core := p } (stimulusOf ws) with core := f }

/-- Core registers with no view pipeline. -/
def regs (m : Memory) (wr rd : Nat) : Fifo := { storage := m, wr := wr, rd := rd, wsync := [], rsync := [] }

/-- C = 4, W = 3, S = 0. -/
def p43 : FifoParams := { cap := 4, idxW := 3 }

/-- C = 2, W = 2, S = 1. -/
def lag1 : FifoParams := { cap := 2, idxW := 2, syncStages := 1 }

/-- C = 2, W = 3, S = 2. -/
def lag2 : FifoParams := { cap := 2, idxW := 3, syncStages := 2 }

/-- Four written slots. -/
def abcd : Memory := [(0, 0x41), (1, 0x42), (2, 0x43), (3, 0x44)]

/-- A full core of C = 4, empty, and half full. -/
def full4 : State := bare p43 (regs abcd 4 0)
def empty4 : State := bare p43 (regs abcd 3 3)
def half4 : State := bare p43 (regs abcd 3 1)

/-- After `PUSH 'A'; POP; POP` of 95 section 2.8, C = 2 and S = 1: rview lags. -/
def lagged : State := bare lag1 { storage := [(0, 0x41)], wr := 1, rd := 1, wsync := [1], rsync := [0] }

/-- A Channel Pair of C = 4 and C = 2 with one cycle to come. -/
def pairOf (a b : CmdWord) : State :=
  State.fresh { Config.default with block := .channelPair, inbound := p43 } [{ cmd := a, cmdOut := b }]

/-- The configuration of program P4 (95 section 3). -/
def pumpCfg : Config := { Config.default with block := .bytePump }

/-- A Byte Pump with the given registers and one LINE word to come. -/
def pumpOf (q : Pump) (inb outb : Fifo) (w : LineWord) : State :=
  { State.fresh pumpCfg [{ line := w }] with pump := q, inbound := inb, outbound := outb }

/-- The pump's registers after reset. -/
def q0 : Pump := Pump.fresh pumpCfg

/-- Pump states of 95 section 2.9. -/
def idlePump (w : LineWord) : State := pumpOf q0 (regs [] 0 0) (regs [] 0 0) w
def heldPump : State := pumpOf { q0 with inSt := .byteAvailable, rxHold := 0x41 } (regs [] 0 0) (regs [] 0 0) 0x000
def deliveredPump : State := pumpOf { q0 with inSt := .delivered, rxHold := 0x41 } (regs [(0, 0x41)] 1 0) (regs [] 0 0) 0x000
def emitPump : State :=
  pumpOf { q0 with inSt := .emit, outQ := [0x41] } (regs [(0, 0x41)] 1 1) (regs [] 0 0) 0x200
def emitFullPump : State :=
  pumpOf { q0 with inSt := .emit, outQ := [0x41], txIrqEn := true, txDropCnt := 0xFFFF } (regs [(0, 0x41)] 1 1)
    (regs [(0, 0x50), (1, 0x51)] 2 0) 0x000
def drainPump (w : LineWord) : State := pumpOf { q0 with txIrqEn := true } (regs [] 0 0) (regs [(0, 0x41)] 1 0) w
def drainedPump (q : Pump) : State := pumpOf q (regs [(0, 0x42)] 1 1) (regs [(0, 0x41)] 1 1) 0x200

/-! ### Decoding (30 R62 to R65, R68, R71; words of 95) -/

theorem test_decode_nop : decode 0b000_00000000 = .nop ∧ decode 0b000_11111111 = .nop := by decide
theorem test_decode_push : decode 0b001_01000001 = .push 0x41 ∧ decode 0b001_11111111 = .push 0xFF := by decide
theorem test_decode_pop : decode 0b010_00000000 = .pop ∧ decode 0b010_10101010 = .pop := by decide
theorem test_decode_pushpop : decode 0b011_00010010 = .pushpop 0x12 ∧ decode 0b011_10000001 = .pushpop 0x81 := by decide
theorem test_decode_reset : decode 0b100_00000000 = .reset ∧ decode 0b111_11111111 = .reset := by decide
theorem test_encode_words : encode .nop = 0x000 ∧ encode (.push 0x46) = 0x146 ∧ encode .pop = 0x200 ∧
    encode (.pushpop 0x15) = 0x315 ∧ encode .reset = 0x400 := by decide
theorem test_decode_line : decodeLine 0x341 = ⟨true, true, 0x41⟩ ∧ decodeLine 0x148 = ⟨false, true, 0x48⟩ ∧
    decodeLine 0x200 = ⟨true, false, 0x00⟩ ∧ encodeLine ⟨true, true, 0x69⟩ = 0x369 := by decide
theorem test_table_word : decodeTableWord 16 0x146 = some (.push 0x46) ∧ decodeTableWord 16 0x7FF = some .reset := by
  decide
/-- A word has 11 bits (30 R62): a wider number is rejected by name. -/
theorem test_wide_number_rejected : decodeTableWord 16 0x800 = none := by decide
theorem test_result_codes : Result.code .ok = 0b00 ∧ Result.code .full = 0b01 ∧ Result.code .empty = 0b10 ∧
    Result.code .invalidCapacity = 0b11 := by decide

/-- 30 R69, R70, R72: lines of the assembler and their words. -/
theorem test_read_line : readLine "  pushpop 'A' ; both".toList = .ok (.pushpop (.chr 'A')) ∧
    readLine "PUSH 256".toList = .error .badImmediate := by decide
theorem test_assemble_pushs : (readLine "PUSHS \"ABCD\"".toList).bind assemble = .ok [0x141, 0x142, 0x143, 0x144] := by
  decide
theorem test_read_cyc : (readLineStmt "CYC RX 'A' TX".toList).map expandLine = .ok [{ line := 0x341 }] ∧
    (readLineStmt "IDLE 2".toList).map expandLine = .ok [{}, {}] := by decide

/-- 30 R70: REPEAT nests (95 section 1.5's body, the braces being characters 123 and 125). -/
theorem test_read_repeat : (readProgram ["RESET".toList, "REPEAT 2 ".toList ++ [Char.ofNat 123], "PUSH 'A'".toList,
      "repeat 2".toList ++ [Char.ofNat 123], "POP".toList, [Char.ofNat 125], [Char.ofNat 125], "NOP".toList]).bind assemble =
    .ok [0x400, 0x141, 0x200, 0x200, 0x141, 0x200, 0x200, 0x000] := by decide
theorem test_read_open_repeat : readProgram ["REPEAT 2 ".toList ++ [Char.ofNat 123], "POP".toList] = .error .badBlock ∧
    readProgram [[Char.ofNat 125]] = .error .badBlock := by decide
theorem test_read_line_program : readLineProgram ["RESET".toList, "CYC RX 'H'".toList, "CYC".toList] =
    .ok [{ rst := true }, { line := 0x148 }, {}] := by decide

/-! ### WellFormed smoke: one ill-formed term for each check -/

theorem test_wf_num_range : (Imm.num 255).wf = true ∧ (Imm.num 256).wf = false := by decide
theorem test_wf_chr_ascii : (Imm.chr 'A').wf = true ∧ (Imm.chr 'é').wf = false := by decide
theorem test_wf_push : (Stmt.push (.num 256)).wf = false := by decide
theorem test_wf_pushpop : (Stmt.pushpop (.chr 'é')).wf = false := by decide
theorem test_wf_pushs : (Stmt.pushs ['A', 'é']).wf = false := by decide
theorem test_wf_rep : (Stmt.rep 2 (.push (.num 300))).wf = false := by decide
theorem test_wf_seq : (Stmt.seq .nop (.push (.num 256))).wf = false ∧ (Stmt.seq (.push (.num 256)) .nop).wf = false := by
  decide
theorem test_wf_cyc : (LineStmt.cyc (some (.num 256)) true).wf = false := by decide
theorem test_assemble_refuses : assemble (.push (.num 256)) = .error .badImmediate := by decide

/-- 95 sections 1.2 and 2.1. -/
theorem test_capacities_refused : elaborates { cap := 0 } = false ∧ elaborates { cap := 3 } = false ∧
    elaborates { cap := 5 } = false ∧ elaborates { cap := 100 } = false ∧ elaborates { cap := 6 } = false := by decide
theorem test_width_bound : elaborates { cap := 1, idxW := 0 } = false ∧ elaborates { cap := 1, idxW := 1 } = true ∧
    elaborates { cap := 1024, idxW := 10 } = false ∧ elaborates { cap := 1024, idxW := 11 } = true ∧
    elaborates { cap := 8, syncStages := 3 } = true := by decide
theorem test_pump_configs : configRefusal pumpCfg = none ∧
    configRefusal { pumpCfg with outbound := { cap := 2, syncStages := 1 } } = some .pumpConfig ∧
    configRefusal { pumpCfg with xform := .copies 3, xformMax := 2 } = some .pumpConfig ∧
    configRefusal { pumpCfg with xform := .copies 3, xformMax := 3 } = none := by decide

/-! ### One step of each command (95 sections 2.3 to 2.8) -/

/-- 2.3: NOP with D = 0xFF, wr = 2, rd = 0, as the first command after reset's state. -/
theorem test_nop : (after (step (bare p43 (regs abcd 2 0) [0x0FF]))).map
    (fun t => (t.core, t.coreOut.pushOk, t.coreOut.popOk, t.coreOut.popData)) =
    some (regs abcd 2 0, false, false, none) := by decide

/-- 2.4: W = 3, wr = 7, rd = 4: the index wraps and the core is full. -/
theorem test_push_wraps : (after (exec (.push 0x20) (bare p43 (regs [] 7 4)))).map
    (fun t => (t.core, t.coreOut.pushRes, t.core.countO p43, t.core.fullO p43)) =
    some (regs [(3, 0x20)] 0 4, some .ok, 4, true) := by decide

/-- 2.4: a full core refuses. -/
theorem test_push_full : (after (exec (.push 0x99) full4)).map (fun t => (t.core, t.coreOut.pushRes)) =
    some (regs abcd 4 0, some .full) := by decide

/-- 2.5: W = 3, wr = 0, rd = 4. -/
theorem test_pop_wrapped : (after (exec .pop (bare p43 (regs [(0, 0x20)] 0 4)))).map
    (fun t => (t.coreOut.popData, t.coreOut.popRes, t.core.rd, t.core.countO p43)) =
    some (some 0x20, some .ok, 5, 3) := by decide

/-- 2.5: the reset state is empty and its storage is never read. -/
theorem test_pop_empty : (after (step (State.reset.withFetchWord 16 0x200))).map
    (fun t => (t.coreOut.popData, t.coreOut.popRes, t.core)) = some (none, some .empty, regs [] 0 0) := by decide

/-- 2.6: no bypass on an empty core. -/
theorem test_pushpop_empty : (after (exec (.pushpop 0x50) (bare p43 (regs [] 2 2)))).map
    (fun t => (t.coreOut.pushRes, t.coreOut.popRes, t.coreOut.popData, t.core)) =
    some (some .ok, some .empty, none, regs [(2, 0x50)] 3 2) := by decide

/-- 2.6: both halves fire. -/
theorem test_pushpop_both : (after (exec (.pushpop 0x60) (bare p43 (regs [(1, 0x42)] 3 1)))).map
    (fun t => (t.coreOut.pushRes, t.coreOut.popRes, t.coreOut.popData, t.core)) =
    some (some .ok, some .ok, some 0x42, regs [(1, 0x42), (3, 0x60)] 4 2) := by decide

/-- 2.7: count_o of the RESET cycle is the old occupancy. -/
theorem test_reset : (after (exec .reset (bare p43 (regs abcd 7 5)))).map
    (fun t => (t.coreOut.count, t.coreOut.pushOk, t.coreOut.popOk, t.core)) =
    some (2, false, false, regs abcd 0 0) := by decide

/-- 2.7: RESET with PUSHQ = POPQ = 1 stores nothing. -/
theorem test_reset_word : (after (step ((bare p43 (regs [] 1 0)).withFetchWord 16 0x7FF))).map (fun t => t.core) =
    some (regs [] 0 0) := by decide

/-- 2.8, cycle 2: a stale view hides the byte. -/
theorem test_stale_pop : (after (exec .pop (bare lag1
      { storage := [(0, 0x41)], wr := 1, rd := 0, wsync := [0], rsync := [0] }))).map
    (fun t => (t.coreOut.popRes, t.core.rd, t.core.wsync)) = some (some .empty, 0, [1]) := by decide

/-- 1.8: F2 refuses a third push and F4 is unaffected (here full). -/
theorem test_pair_independent : (after (step { pairOf 0x000 0x107 with
      inbound := regs abcd 4 0, outbound := regs [(0, 0x09), (1, 0x08)] 2 0 })).map
    (fun t => (t.outboundOut.pushRes, t.inbound.countO p43, t.outbound.countO Config.default.outbound)) =
    some (some .full, 4, 2) := by decide

/-! ### One step of the Byte Pump (95 section 2.9) -/

theorem test_pump_idle : (after (step (idlePump 0x141))).map (fun t => (t.lineOut.rxTake, t.pump.rxHold, t.pump.inSt)) =
    some (true, 0x41, .byteAvailable) := by decide
theorem test_pump_byte_available : (after (step heldPump)).map (fun t => (t.lineOut.rxTake, t.inbound, t.pump.inSt)) =
    some (false, regs [(0, 0x41)] 1 0, .delivered) := by decide
theorem test_pump_delivered : (after (step deliveredPump)).map (fun t => (t.inbound.rd, t.pump.outQ, t.pump.inSt)) =
    some (1, [0x41], .emit) := by decide
theorem test_pump_emit : (after (step emitPump)).map
    (fun t => (t.lineOut.txWrite, t.outbound, t.pump.txIrqEn, t.pump.inSt)) =
    some (false, regs [(0, 0x41)] 1 0, true, .idle) := by decide
theorem test_pump_drop_saturates : (after (step emitFullPump)).map (fun t => (t.pump.txDropCnt, t.outbound.wr)) =
    some (0xFFFF, 2) := by decide
theorem test_pump_drain : (after (step (drainPump 0x200))).map (fun t => (t.lineOut, t.outbound.rd, t.pump.outSt)) =
    some (⟨false, true, 0x41⟩, 1, .draining) := by decide
theorem test_pump_set_wins : (after (step (drainedPump
      { q0 with txIrqEn := true, inSt := .emit, outQ := [0x42] }))).map (fun t => (t.lineOut.txWrite, t.pump.txIrqEn)) =
    some (false, true) := by decide
theorem test_pump_clear : (after (step (drainedPump { q0 with txIrqEn := true }))).map
    (fun t => (t.lineOut.txWrite, t.pump.txIrqEn, t.pump.outSt)) = some (false, false, .idle) := by decide
/-- 10 R32: the queue of EMIT is never empty; where it were, the model stops. -/
theorem test_pump_emit_empty_faults : faultOf (step (pumpOf { q0 with inSt := .emit } (regs [] 0 0) (regs [] 0 0) 0)) =
    some .emitQueueEmpty := by decide

/-! ### Laws of storage and of the reset state -/

theorem test_reset_memory_wf : Memory.wf State.reset.core.storage ∧ Memory.wf State.reset.inbound.storage ∧
    Memory.wf State.reset.outbound.storage := by decide

/-! ### Witnesses: for each statement with hypotheses, states and operands that meet them, clause by clause -/

/-- A configuration C = 3, which does not elaborate. -/
def bad : FifoParams := { cap := 3 }

/-- A Channel Pair with one input to come, of the given parameters. -/
def pairWith (a b : FifoParams) : State :=
  State.fresh { Config.default with block := .channelPair, inbound := a, outbound := b } [{}]

/-- The state with every stage of two pipelines distinct, C = 2, W = 3, S = 2. -/
def lagged2 : State := bare lag2 { storage := [(0, 0x41), (1, 0x42)], wr := 2, rd := 0, wsync := [1, 0], rsync := [0, 0] }

/-- The invariant of a state, from parts that are each decided. -/
theorem inv_of {s : State} (h0 : configRefusal s.cfg = none) (h1 : s.sel = .single) (h2 : s.core.Inv s.cfg.core)
    (h3 : s.inbound.Inv s.cfg.inbound) (h4 : s.outbound.Inv s.cfg.outbound) (h5 : PumpInv s) : s.Inv :=
  ⟨h0, h1, fun _ => h2, fun _ => ⟨h3, h4⟩, fun _ => h5⟩

theorem inv_full4 : State.Inv (bare p43 full4.core [0x312]) :=
  inv_of (by decide) rfl (by decide) (by decide) (by decide) (by decide)
theorem inv_lagged : State.Inv (bare lag1 lagged.core [0x200]) :=
  inv_of (by decide) rfl (by decide) (by decide) (by decide) (by decide)
theorem inv_pair : State.Inv (pairOf 0x101 0x200) :=
  inv_of (by decide) rfl (by decide) (by decide) (by decide) (by decide)
theorem inv_idle_ready : State.Inv (idlePump 0x141) :=
  inv_of (by decide) rfl (by decide) (by decide) (by decide) (by decide)
theorem inv_idle : State.Inv (idlePump 0x000) :=
  inv_of (by decide) rfl (by decide) (by decide) (by decide) (by decide)
theorem inv_held : State.Inv heldPump :=
  inv_of (by decide) rfl (by decide) (by decide) (by decide) (by decide)
theorem inv_delivered : State.Inv deliveredPump :=
  inv_of (by decide) rfl (by decide) (by decide) (by decide) (by decide)
theorem inv_emit : State.Inv emitPump :=
  inv_of (by decide) rfl (by decide) (by decide) (by decide) (by decide)
theorem inv_emit_full : State.Inv emitFullPump :=
  inv_of (by decide) rfl (by decide) (by decide) (by decide) (by decide)
theorem inv_drain : State.Inv (drainPump 0x200) :=
  inv_of (by decide) rfl (by decide) (by decide) (by decide) (by decide)
theorem inv_wait : State.Inv (drainPump 0x000) :=
  inv_of (by decide) rfl (by decide) (by decide) (by decide) (by decide)

theorem witness_DecodeOfEncodeIsTheCommand : (Instr.push 0x00).wf = true ∧ (Instr.pushpop 0xFF).wf = true ∧
    Instr.nop.wf = true ∧ Instr.pop.wf = true ∧ Instr.reset.wf = true := by decide
theorem witness_PseudoInstructionsExpand : ['A', Char.ofNat 127].all asciiOk = true ∧ [].all asciiOk = true ∧
    assemble (.push (.num 255)) = .ok [0x1FF] := by decide
theorem witness_InvalidCapacityRefusesEveryCommand : elaborates bad = false ∧ elaborates { cap := 0 } = false ∧
    paramsOf (bare bad (regs [] 0 0)).cfg (bare bad (regs [] 0 0)).sel = bad := by decide
theorem witness_PairIsRefusedWhenEitherCoreIs : (pairWith p43 p43).cfg.block = .channelPair ∧
    (elaborates (pairWith p43 p43).cfg.inbound = true ∧ elaborates (pairWith p43 p43).cfg.outbound = true) ∧
    elaborates (pairWith bad p43).cfg.inbound = false ∧ elaborates (pairWith p43 bad).cfg.outbound = false ∧
    (pairWith bad p43).cfg.block = .channelPair ∧ (pairWith bad p43).stim ≠ [] ∧
    (pairWith p43 bad).cfg.block = .channelPair ∧ (pairWith p43 bad).stim ≠ [] := by decide
theorem witness_PumpConfigurationChecks : (idlePump 0).cfg.block = .bytePump ∧ (idlePump 0).stim ≠ [] := by decide
/-- Both sides of both equivalences occur (95 section 2.1). -/
theorem witness_PumpConfigurationChecks_both : (after (step (idlePump 0))).isSome = true ∧
    refusalOf (step { idlePump 0 with cfg := { pumpCfg with inbound := bad } }) = some .invalidCapacity ∧
    refusalOf (step { idlePump 0 with cfg := { pumpCfg with outbound := { cap := 2, syncStages := 1 } } }) =
      some .pumpConfig ∧
    refusalOf (step { idlePump 0 with cfg := { pumpCfg with xform := .copies 3, xformMax := 2 } }) =
      some .pumpConfig := by decide
theorem witness_SlotIsIndexModCapacity : elaborates p43 = true ∧ elaborates { cap := 1, idxW := 1 } = true ∧
    FifoParams.cap { cap := 1, idxW := 1 } = 1 := by decide
theorem witness_CountsAreDifferencesFromViews : (regs abcd 1 5).WellFormed p43 ∧ p43.syncStages = 0 ∧
    lagged.core.WellFormed lag1 ∧ lag1.syncStages = 0 + 1 ∧ lagged2.core.WellFormed lag2 ∧ lag2.syncStages = 1 + 1 := by
  decide
theorem witness_IncrementKeepsOccupancyExact : 7 < 2 ^ 3 ∧ 4 < 2 ^ 3 ∧ subIdx 3 7 4 < 4 ∧ 0 < subIdx 3 7 4 ∧
    1 < 2 ^ 1 ∧ subIdx 1 1 1 < 1 ∧ 0 < subIdx 1 1 0 ∧ 0 < subIdx 3 0 7 := by decide
theorem witness_StatusOutputsShowPreEdgeState : (∃ t, exec .reset full4 = .next t) ∧ full4.core.Inv p43 ∧
    (∃ t, exec .nop empty4 = .next t) ∧ empty4.core.Inv p43 ∧ (∃ t, exec .pop lagged = .next t) ∧
    lagged.core.Inv lag1 ∧ p43.syncStages = 0 :=
  ⟨⟨_, rfl⟩, by decide, ⟨_, rfl⟩, by decide, ⟨_, rfl⟩, by decide, rfl⟩
theorem witness_CapacityOutputIsConstant : ∃ t u, exec .reset full4 = .next t ∧ exec (.push 0) t = .next u :=
  ⟨_, _, rfl, rfl⟩
theorem witness_SingleSlotIsFullOrEmpty : elaborates { cap := 1, idxW := 1 } = true ∧
    (regs [(0, 0x70)] 1 0).Inv { cap := 1, idxW := 1 } ∧ (regs [] 1 1).Inv { cap := 1, idxW := 1 } := by decide
theorem witness_NopOnlyShiftsViews : paramsOf lagged.cfg lagged.sel = lag1 ∧ elaborates lag1 = true := by decide
theorem witness_PushStoresByteOrReportsFull : elaborates p43 = true ∧ empty4.core.cntP p43 ≠ p43.cap ∧
    full4.core.cntP p43 = p43.cap := by decide
theorem witness_PopReturnsByteOrReportsEmpty : elaborates p43 = true ∧ full4.core.cntC p43 ≠ 0 ∧
    (Memory.read full4.core.storage (full4.core.rd % p43.cap)).isSome = true ∧ empty4.core.cntC p43 = 0 := by decide
theorem witness_PushpopRunsBothHalvesOnPreEdgeState :
    (full4.core.cntP p43 = p43.cap ∧ full4.core.cntC p43 ≠ 0 ∧
      (Memory.read full4.core.storage (full4.core.rd % p43.cap)).isSome = true) ∧
    (empty4.core.cntP p43 ≠ p43.cap ∧ empty4.core.cntC p43 = 0) ∧
    (half4.core.cntP p43 ≠ p43.cap ∧ half4.core.cntC p43 ≠ 0 ∧
      (Memory.read half4.core.storage (half4.core.rd % p43.cap)).isSome = true) := by decide
/-- A core that is full to its producer and empty to its consumer at once (S = 1). -/
theorem witness_PushpopRunsBothHalvesOnPreEdgeState_neither :
    (Fifo.cntP { lag1 with cap := 1 } { lagged.core with wsync := [1] }) = 1 ∧
    (Fifo.cntC { lag1 with cap := 1 } { lagged.core with wsync := [1] }) = 0 ∧
    elaborates { lag1 with cap := 1 } = true := by decide
theorem witness_ResetGivesFreshBuffer : paramsOf lagged2.cfg lagged2.sel = lag2 ∧ elaborates lag2 = true := by decide
theorem witness_PopOfUnwrittenSlotFaults : elaborates p43 = true ∧ (regs [] 1 0).cntC p43 ≠ 0 ∧
    Memory.read (regs [] 1 0).storage ((regs [] 1 0).rd % p43.cap) = none ∧
    faultOf (exec .pop (bare p43 (regs [] 1 0))) = some .unwrittenSlot := by decide
theorem witness_CommandsTouchOnlyTheirCore : (∃ t, exec (.push 0x10) half4 = .next t) ∧ CoreSel.inbound ≠ half4.sel ∧
    CoreSel.outbound ≠ half4.sel := ⟨⟨_, rfl⟩, by decide, by decide⟩
theorem witness_EachSideWritesOnlyItsOwn : (∃ t, exec .pop half4 = .next t ∧ (t.out half4.sel).pushOk = false) ∧
    (∃ t, exec (.push 0x10) half4 = .next t ∧ (t.out half4.sel).popOk = false ∧ 0 ≠ half4.core.wr % p43.cap) ∧
    full4.core.wr = (regs [] 4 0).wr ∧ full4.core.rview p43 = (regs [] 4 0).rview p43 ∧
    full4.core.rd = (regs [] 4 0).rd ∧ full4.core.wview p43 = (regs [] 4 0).wview p43 :=
  ⟨⟨_, rfl, by decide⟩, ⟨_, rfl, by decide, by decide⟩, by decide, by decide, by decide, by decide⟩
theorem witness_FullDeniesPushWithoutEffect : elaborates p43 = true ∧ full4.core.cntP p43 = p43.cap ∧
    ∃ t, exec (.pushpop 0x45) full4 = .next t := ⟨by decide, by decide, _, rfl⟩
theorem witness_EmptyDeniesPopWithoutEffect : elaborates p43 = true ∧ empty4.core.cntC p43 = 0 := by decide
theorem witness_DeniedCommandLeavesWhatNopLeaves : ∃ t u v w, exec (.push 0x99) full4 = .next t ∧
    exec .nop full4 = .next u ∧ (t.out full4.sel).pushOk = false ∧ (t.out full4.sel).popOk = false ∧
    exec .pop t = .next v ∧ exec .pop u = .next w := ⟨_, _, _, _, rfl, rfl, by decide, by decide, rfl, rfl⟩
theorem witness_PushDataIgnoredUnlessPushFires :
    (full4.fifo full4.sel).cntP (paramsOf full4.cfg full4.sel) = (paramsOf full4.cfg full4.sel).cap := by decide
theorem witness_PushpopHalvesAreIndependent : ∃ t u v, exec (.pushpop 0x60) half4 = .next t ∧
    exec (.push 0x60) half4 = .next u ∧ exec .pop half4 = .next v := ⟨_, _, _, rfl, rfl, rfl⟩
theorem witness_PipelinesShiftEveryCycle : lagged2.core.WellFormed lag2 ∧ 0 < lag2.syncStages ∧ 0 + 1 < lag2.syncStages ∧
    ∃ t, exec .nop lagged2 = .next t := ⟨by decide, by decide, by decide, _, rfl⟩
theorem witness_StaleViewsAreSafe : lagged.core.Inv lag1 ∧ lagged2.core.Inv lag2 ∧ full4.core.Inv p43 := by decide
theorem witness_FiringHalvesUseDifferentSlots : elaborates p43 = true ∧ half4.core.Inv p43 ∧
    half4.core.pushFire p43 (Ports.pushpop 0x60) = true ∧ half4.core.popFire p43 (Ports.pushpop 0x60) = true := by decide
theorem witness_CoreIsFirstInFirstOutQueue : elaborates lag2 = true ∧ lagged2.core.Inv lag2 ∧ full4.core.Inv p43 ∧
    half4.core.Inv p43 ∧ empty4.core.Inv p43 := ⟨by decide, by decide, by decide, by decide, by decide⟩
theorem witness_PopsReturnPushesInOrder : elaborates p43 = true ∧ (empty4.fifo empty4.sel).Inv p43 ∧
    (empty4.fifo empty4.sel).contents p43 = [] ∧ Instr.reset ∉ [Instr.push 1, .pushpop 2, .pop, .nop] := by decide
theorem witness_CapacityBoundAfterReset : elaborates lag1 = true ∧
    (bare lag1 (Fifo.fresh lag1)).core.wsync = List.replicate lag1.syncStages 0 ∧
    (bare lag1 (Fifo.fresh lag1)).core.rsync = List.replicate lag1.syncStages 0 ∧
    (bare lag1 (Fifo.fresh lag1)).core.wr = 0 ∧ (bare lag1 (Fifo.fresh lag1)).core.rd = 0 ∧
    [(0x41 : Byte), 0x42].length = lag1.cap := by decide
theorem witness_PushedByteIsPoppableAfterLag : elaborates lag1 = true ∧ (Fifo.fresh lag1).WellFormed lag1 ∧
    (Fifo.fresh lag1).Settled ∧ (Fifo.fresh lag1).wr = (Fifo.fresh lag1).rd := by decide
theorem witness_FreshMachineMeetsInvariant : configRefusal Config.default = none ∧ configRefusal pumpCfg = none ∧
    configRefusal (pairWith p43 lag1).cfg = none := by decide
theorem witness_EveryStepKeepsInvariant : (bare p43 full4.core [0x312]).Inv ∧ (pairOf 0x101 0x200).Inv ∧
    deliveredPump.Inv ∧ (∃ t, step (bare p43 full4.core [0x312]) = .next t) ∧
    (∃ t, step (pairOf 0x101 0x200) = .next t) ∧ ∃ t, step deliveredPump = .next t :=
  ⟨inv_full4, inv_pair, inv_delivered, ⟨_, rfl⟩, ⟨_, rfl⟩, ⟨_, rfl⟩⟩
theorem witness_InvariantStatesNeverFault : emitFullPump.Inv ∧ emitFullPump.stim ≠ [] ∧
    (bare lag1 lagged.core [0x200]).Inv ∧ (bare lag1 lagged.core [0x200]).stim ≠ [] :=
  ⟨inv_emit_full, by decide, inv_lagged, by decide⟩
theorem witness_StepRunsTheDecodedCommand : (bare p43 half4.core [0x360]).stim = [{ cmd := 0x360 }] ∧
    (bare p43 half4.core [0x360]).cfg.block = .core ∧ elaborates (bare p43 half4.core [0x360]).cfg.core = true := by decide
theorem witness_StepConsumesExactlyOneInput : (∃ t, step (bare p43 half4.core [0x360]) = .next t) ∧ half4.stim = [] :=
  ⟨⟨_, rfl⟩, rfl⟩
theorem witness_RecordedOutputsInfluenceNothing : (∃ t, step (bare p43 half4.core [0x360]) = .next t) ∧
    ∃ t, step emitPump = .next t := ⟨⟨_, rfl⟩, ⟨_, rfl⟩⟩
theorem witness_PairCoresAreNotCoupled : (pairOf 0x101 0x200).cfg.block = .channelPair ∧ decode 0x101 ≠ .reset ∧
    decode 0x200 ≠ .reset ∧ elaborates (pairOf 0x101 0x200).cfg.inbound = true ∧
    elaborates (pairOf 0x101 0x200).cfg.outbound = true ∧
    (∃ u, exec (decode 0x101) { pairOf 0x101 0x200 with sel := .inbound } = .next u) ∧
    ∃ v, exec (decode 0x200) { pairOf 0x101 0x200 with sel := .outbound } = .next v :=
  ⟨by decide, by decide, by decide, by decide, by decide, ⟨_, rfl⟩, ⟨_, rfl⟩⟩
theorem witness_OneResetResetsBothCores : (pairOf 0x400 0x109).cfg.block = .channelPair ∧ decode 0x400 = .reset ∧
    decode 0x109 ≠ .reset ∧ elaborates (pairOf 0x400 0x109).cfg.inbound = true ∧
    elaborates (pairOf 0x400 0x109).cfg.outbound = true ∧ (pairOf 0x109 0x400).stim = [{ cmd := 0x109, cmdOut := 0x400 }] := by
  decide
theorem witness_PumpIdleTakesReadyByte : (idlePump 0x141).Inv ∧ (idlePump 0x141).pump.inSt = .idle ∧
    (decodeLine 0x141).rxReady = true ∧ (idlePump 0x000).Inv ∧ (decodeLine 0x000).rxReady = false :=
  ⟨inv_idle_ready, by decide, by decide, inv_idle, by decide⟩
theorem witness_PumpPushesHeldByte : heldPump.Inv ∧ heldPump.pump.inSt = .byteAvailable ∧
    heldPump.inbound.fullO heldPump.cfg.inbound = false ∧ ∃ t, step heldPump = .next t :=
  ⟨inv_held, by decide, by decide, _, rfl⟩
/-- The refused push of 42 R125 with a saturated counter, in a state no run reaches (42 R136). -/
theorem witness_PumpPushesHeldByte_full : ∃ t, step { heldPump with
      inbound := regs [(0, 0x50), (1, 0x51)] 2 0, pump := { heldPump.pump with rxDropCnt := 0xFFFF } } = .next t ∧
    t.inboundOut.pushRes = some .full := ⟨_, rfl, by decide⟩
theorem witness_PumpDeliversByteToTransform : deliveredPump.Inv ∧ deliveredPump.pump.inSt = .delivered :=
  ⟨inv_delivered, by decide⟩
theorem witness_PumpEmitsOneBytePerCycle : emitPump.Inv ∧ emitPump.pump.inSt = .emit ∧ emitPump.pump.outQ = [0x41] ∧
    emitPump.outbound.occupancy emitPump.cfg.outbound ≠ emitPump.cfg.outbound.cap ∧ emitFullPump.Inv ∧
    emitFullPump.pump.inSt = .emit ∧ emitFullPump.pump.outQ = [0x41] ∧
    emitFullPump.outbound.occupancy emitFullPump.cfg.outbound = emitFullPump.cfg.outbound.cap :=
  ⟨inv_emit, by decide, by decide, by decide, inv_emit_full, by decide, by decide, by decide⟩
theorem witness_PumpDrainsOldestByte : (drainPump 0x200).Inv ∧ (drainPump 0x200).cfg.block = .bytePump ∧
    (after (step (drainPump 0x200))).map (fun t => t.lineOut.txWrite) = some true ∧ (drainPump 0x000).Inv ∧
    (after (step (drainPump 0x000))).map (fun t => t.lineOut.txWrite) = some false :=
  ⟨inv_drain, by decide, by decide, inv_wait, by decide⟩
/-- A set, a clear, a hold and a disabled interrupt (95 section 2.9). -/
theorem witness_TransmitEnableSetWinsOverClear :
    (∃ t, step emitPump = .next t ∧ t.outboundOut.pushOk = true) ∧
    (∃ t, step (drainedPump { q0 with txIrqEn := true }) = .next t ∧ t.outboundOut.pushOk = false) ∧
    (decodeLine 0x200).txReady = true ∧ (regs [(0, 0x41)] 1 1).emptyO pumpCfg.outbound = true ∧
    (∃ t, step (drainPump 0x000) = .next t ∧ t.outboundOut.pushOk = false) ∧ (decodeLine 0x000).txReady = false ∧
    (∃ t, step (drainPump 0x200) = .next t ∧ t.outboundOut.pushOk = false) ∧
    (drainPump 0x200).outbound.emptyO pumpCfg.outbound = false ∧
    ∃ t, step (drainedPump q0) = .next t ∧ t.outboundOut.pushOk = false :=
  ⟨⟨_, rfl, by decide⟩, ⟨_, rfl, by decide⟩, by decide, by decide, ⟨_, rfl, by decide⟩, by decide, ⟨_, rfl, by decide⟩,
    by decide, ⟨_, rfl, by decide⟩⟩
theorem witness_NoByteIsStranded : (drainPump 0x200).Inv ∧ (drainPump 0x200).cfg.block = .bytePump ∧
    0 < (drainPump 0x200).outbound.countO (drainPump 0x200).cfg.outbound ∧ (drainPump 0x200).stim = [{ line := 0x200 }] ∧
    (decodeLine 0x200).txReady = true := ⟨inv_drain, by decide, by decide, by decide, by decide⟩
theorem witness_DropCountersNeverWrap : emitFullPump.pump.txDropCnt = 2 ^ emitFullPump.cfg.dropW - 1 ∧
    emitFullPump.pump.txDropCnt < 2 ^ emitFullPump.cfg.dropW ∧ emitFullPump.pump.rxDropCnt < 2 ^ emitFullPump.cfg.dropW ∧
    (∃ t, step emitFullPump = .next t) ∧ ∃ t, step { emitFullPump with stim := [{ rst := true }] } = .next t :=
  ⟨by decide, by decide, by decide, ⟨_, rfl⟩, ⟨_, rfl⟩⟩
theorem witness_PumpResetCycle : configRefusal emitFullPump.cfg = none ∧ emitFullPump.cfg.block = .bytePump ∧
    Input.rst { rst := true, line := 0x3FF } = true := by decide
theorem witness_PumpAloneDrivesItsPorts : (∃ t, step (idlePump 0x141) = .next t) ∧ (∃ t, step heldPump = .next t) ∧
    (∃ t, step deliveredPump = .next t) ∧ (∃ t, step emitPump = .next t) ∧
    (∃ t, step (drainPump 0x200) = .next t ∧ t.outboundOut.popRes ≠ none) ∧
    ∃ t, step (drainPump 0x000) = .next t ∧ t.outboundOut.popRes = none :=
  ⟨⟨_, rfl⟩, ⟨_, rfl⟩, ⟨_, rfl⟩, ⟨_, rfl⟩, ⟨_, rfl, by decide⟩, ⟨_, rfl, by decide⟩⟩
theorem witness_InvalidCapacityRefusesEveryStep : (bare bad (regs [] 0 0) [0x000]).cfg.block = .core ∧
    elaborates (bare bad (regs [] 0 0) [0x000]).cfg.core = false ∧ (bare bad (regs [] 0 0) [0x000]).stim ≠ [] ∧
    (pairWith p43 bad).cfg.block ≠ .core ∧ elaborates (pairWith p43 bad).cfg.outbound = false ∧
    (pairWith bad p43).cfg.block ≠ .core ∧ elaborates (pairWith bad p43).cfg.inbound = false := by decide

/-- A cycle as the line sees it. -/
def seen (w : LineWord) (o : LineOut) (taken : Nat) (accepted : List Byte) : LineCycle :=
  { drive := decodeLine w, answer := o, taken := taken, accepted := accepted, canAccept := true }

/-- Cycles 1 to 5 of program P4 (95 section 3), and its line in cycle 6. -/
def cyclesOfP4 : List LineCycle :=
  [ seen 0x148 ⟨true, false, 0x00⟩ 0 [], seen 0x369 ⟨false, false, 0x00⟩ 1 [], seen 0x369 ⟨false, false, 0x00⟩ 1 [],
    seen 0x369 ⟨false, false, 0x00⟩ 1 [], seen 0x369 ⟨true, true, 0x48⟩ 1 [] ]
def afterP4 : LineCycle := seen 0x200 ⟨false, false, 0x00⟩ 2 [0x48]
def startOfP4 : State :=
  State.fresh pumpCfg [{ line := 0x148 }, { line := 0x369 }, { line := 0x369 }, { line := 0x369 }, { line := 0x369 }]

theorem inv_P4 : startOfP4.Inv := inv_of (by decide) rfl (by decide) (by decide) (by decide) (by decide)
theorem witness_LineBytesComeBackTransformed : startOfP4.Inv ∧ startOfP4.cfg.block = .bytePump ∧
    (∀ i ∈ startOfP4.stim.take cyclesOfP4.length, i.rst = false) ∧ (∃ t, lineRun cyclesOfP4 startOfP4 = some t) ∧
    LineDuties [0x48, 0x69] (cyclesOfP4 ++ [afterP4]) :=
  ⟨inv_P4, by decide, by decide, ⟨_, rfl⟩, by decide⟩

/-- A line that lets go of a byte not taken, or is ready while it cannot accept, breaks its duties (42 R134 (c), (e)). -/
theorem test_line_duties_refuse :
    ¬ LineDuties [0x48] [seen 0x148 ⟨false, false, 0x00⟩ 0 [], seen 0x000 ⟨false, false, 0x00⟩ 0 []] ∧
    ¬ LineDuties [] [{ seen 0x200 ⟨false, false, 0x00⟩ 0 [] with canAccept := false }] := by decide

end Sys2Proof.Tests
end

/-! ## The Channel Pair driven directly (spec 41 R112, R114) -/

namespace Sys2Proof.Machine

open Sys2Proof

/-- A command gives a next state where the selected core elaborates and its cycle does not fail: the converse of
`State.command_cases`. -/
theorem exec_of_cycle {c : Instr} {s : State} {f : Fifo} {o : PortOut}
    (he : elaborates (paramsOf s.cfg s.sel) = true)
    (hc : (s.fifo s.sel).cycle (paramsOf s.cfg s.sel) (Ports.ofInstr c) = .ok (f, o)) :
    exec c s = .next (s.setFifo s.sel f o) := by
  rw [exec_eq_command, State.command, if_pos he, hc]

/-- A command that gives a next state ran one cycle of the core it was selected for, and changed nothing else. -/
theorem exec_sel_next {c : Instr} {s t : State} {k : CoreSel} (h : exec c { s with sel := k } = .next t) :
    ∃ f o, (s.fifo k).cycle (paramsOf s.cfg k) (Ports.ofInstr c) = .ok (f, o) ∧
      t = State.setFifo { s with sel := k } k f o := by
  rw [exec_eq_command] at h
  obtain ⟨-, f, o, hc, ht⟩ := State.command_cases h
  exact ⟨f, o, by cases k <;> exact hc, ht⟩

/-- The elaborated pair's step is the pair's cycle on the next input. -/
theorem step_channelPair {s : State} {i : Input} {rest : List Input} (hs : s.stim = i :: rest)
    (hb : s.cfg.block = .channelPair) (hi : elaborates s.cfg.inbound = true)
    (ho : elaborates s.cfg.outbound = true) : step s = pairCycle i { s with stim := rest } := by
  have hc : configRefusal s.cfg = none := by simp [configRefusal, hb, hi, ho]
  simp only [step, hs, runCycle, hc, hb]

/-- Where neither stream asserts rst, each core gets the command of its own word. -/
theorem pairCommands_of_no_reset {i : Input} (hi : decode i.cmd ≠ .reset) (ho : decode i.cmdOut ≠ .reset) :
    pairCommands i = (decode i.cmd, decode i.cmdOut) :=
  if_neg (not_or.mpr ⟨hi, ho⟩)

/-- The pair's cycle is the two cores' cycles, both from the pre-edge state: that outbound runs on the state inbound
left makes no difference to it. -/
theorem pairCycle_of_cycles {i : Input} {s : State} {ci co : Instr} {fi fo : Fifo} {oi oo : PortOut}
    (hp : pairCommands i = (ci, co)) (hei : elaborates s.cfg.inbound = true)
    (heo : elaborates s.cfg.outbound = true)
    (hi : s.inbound.cycle s.cfg.inbound (Ports.ofInstr ci) = .ok (fi, oi))
    (ho : s.outbound.cycle s.cfg.outbound (Ports.ofInstr co) = .ok (fo, oo)) :
    pairCycle i s = .next { s with
      inbound := fi, inboundOut := oi, outbound := fo, outboundOut := oo, sel := .single } := by
  have h1 : exec ci { s with sel := .inbound } =
      .next { s with inbound := fi, inboundOut := oi, sel := .inbound } := exec_of_cycle hei hi
  have h2 : exec co { s with inbound := fi, inboundOut := oi, sel := .outbound } =
      .next { s with inbound := fi, inboundOut := oi, outbound := fo, outboundOut := oo, sel := .outbound } :=
    exec_of_cycle heo ho
  simp only [pairCycle, hp, h1, h2, andThen]

/-- Settles O45: each command alone is one cycle of its own core, and the pair's step is those two cycles. -/
theorem pairCoresAreNotCoupled : Obligations.PairCoresAreNotCoupled := by
  intro s u v i rest hs hb hri hro hei heo hu hv
  obtain ⟨fi, oi, hi, rfl⟩ := exec_sel_next hu
  obtain ⟨fo, oo, ho, rfl⟩ := exec_sel_next hv
  have hp := pairCommands_of_no_reset hri hro
  have hstep := (step_channelPair hs hb hei heo).trans
    (pairCycle_of_cycles (s := { s with stim := rest }) hp hei heo hi ho)
  exact ⟨_, hstep, rfl, rfl, rfl, rfl, rfl, rfl⟩

end Sys2Proof.Machine

/-! ## Slots (spec 20 R41) -/

namespace Sys2Proof.Machine

open Sys2Proof

/-- What the elaboration check gives (40 R80): C is the power of two 2^k of its own k = CAP_LOG2, and k + 1 ≤ W. -/
theorem cap_eq_two_pow_of_elaborates {p : FifoParams} (h : elaborates p = true) :
    p.cap = 2 ^ p.capLog2 ∧ p.capLog2 + 1 ≤ p.idxW := by
  simp only [elaborates, Bool.and_eq_true, bne_iff_ne, beq_iff_eq, decide_eq_true_eq] at h
  obtain ⟨⟨hne, hand⟩, hw⟩ := h
  obtain ⟨k, hk⟩ := (Nat.and_sub_one_eq_zero_iff_isPowerOfTwo hne).1 hand
  have hlog : p.capLog2 = k := by rw [FifoParams.capLog2, hk, Nat.log2_two_pow]
  exact ⟨hlog ▸ hk, hw⟩

/-- "Because C = 2^k, `index & mask` equals `index mod C`" (20 R41): the mask 2^k - 1 fits W bits, and AND with it keeps
the index's low k bits, which the reduction modulo 2^W left alone. -/
theorem slotOf_eq_mod_cap {p : FifoParams} (h : elaborates p = true) (index : Nat) :
    slotOf p index = index % p.cap := by
  obtain ⟨hcap, hw⟩ := cap_eq_two_pow_of_elaborates h
  have hle : 2 ^ p.capLog2 ≤ 2 ^ p.idxW := Nat.pow_le_pow_right (by decide) (by omega)
  have hmask : p.mask % 2 ^ p.idxW = 2 ^ p.capLog2 - 1 := by
    rw [FifoParams.mask, hcap]
    exact Nat.mod_eq_of_lt (Nat.sub_one_lt_of_le (Nat.two_pow_pos _) hle)
  calc slotOf p index
      = index % 2 ^ p.idxW &&& p.mask % 2 ^ p.idxW := by
        rw [slotOf, BitVec.toNat_and, BitVec.toNat_ofNat, BitVec.toNat_ofNat]
    _ = index % 2 ^ p.idxW % 2 ^ p.capLog2 := by rw [hmask, Nat.and_two_pow_sub_one_eq_mod]
    _ = index % 2 ^ p.capLog2 := Nat.mod_mod_of_dvd _ (Nat.pow_dvd_pow 2 (by omega))
    _ = index % p.cap := by rw [hcap]

/-- Settles O13: both slots are `slotOf` of their index, which is the index mod C, and C = 2^k; every number mod 1 is
0. -/
theorem slotIsIndexModCapacity : Obligations.SlotIsIndexModCapacity := by
  intro p f h
  obtain ⟨hcap, -⟩ := cap_eq_two_pow_of_elaborates h
  have hwr : f.wslot p = f.wr % p.cap := slotOf_eq_mod_cap h f.wr
  have hrd : f.rslot p = f.rd % p.cap := slotOf_eq_mod_cap h f.rd
  refine ⟨rfl, hwr, hrd, rfl, rfl, hcap ▸ hwr, hcap ▸ hrd, fun hone => ?_⟩
  rw [hwr, hrd, FifoParams.mask, hone]
  exact ⟨rfl, Nat.mod_one _, Nat.mod_one _⟩

end Sys2Proof.Machine

/-! ## The capacity output (spec 40 R93) -/

namespace Sys2Proof.Machine

open Sys2Proof

/-- What a command can do when it gives a next state: `State.command_cases` with the ports that command drives. -/
theorem exec_cases {i : Instr} {s t : State} (h : exec i s = .next t) :
    elaborates (paramsOf s.cfg s.sel) = true ∧
    ∃ f o, (s.fifo s.sel).cycle (paramsOf s.cfg s.sel) (Ports.ofInstr i) = .ok (f, o) ∧
      t = s.setFifo s.sel f o :=
  State.command_cases ((exec_eq_command i s).symm.trans h)

/-- No command changes the configuration or the selection, so the core it ran on keeps its parameters. -/
theorem exec_cfg_sel {i : Instr} {s t : State} (h : exec i s = .next t) : t.cfg = s.cfg ∧ t.sel = s.sel := by
  obtain ⟨-, f, o, -, rfl⟩ := exec_cases h
  exact ⟨State.setFifo_cfg .., State.setFifo_sel ..⟩

/-- capacity_o is C in every cycle of a core, one with rst = 1 among them. -/
theorem Fifo.cycle_capacity {p : FifoParams} {io : Ports} {f g : Fifo} {o : PortOut}
    (h : f.cycle p io = .ok (g, o)) : o.capacity = p.cap := by
  obtain ⟨-, -, rfl⟩ | ⟨-, -, -, rfl⟩ | ⟨b, -, -, -, -, rfl⟩ := Fifo.cycle_cases h
  · rfl  -- resetOut
  · rfl  -- portOut, no byte popped
  · rfl  -- portOut, a byte popped

/-- capacity_o in the cycle of a command is the C of the core the command ran on. -/
theorem exec_capacity {i : Instr} {s t : State} (h : exec i s = .next t) :
    (t.out s.sel).capacity = (paramsOf s.cfg s.sel).cap := by
  obtain ⟨-, f, o, hc, rfl⟩ := exec_cases h
  rw [State.out_setFifo]
  exact Fifo.cycle_capacity hc

/-- COUNT_W = CAP_LOG2 + 1 bits hold C (00 R10). -/
theorem cap_lt_two_pow_countW (p : FifoParams) : p.cap < 2 ^ p.countW := Nat.lt_log2_self

/-- Settles O17: every command's cycle shows the C of its core, and the next command runs on a core with the same
parameters. -/
theorem capacityOutputIsConstant : Obligations.CapacityOutputIsConstant := by
  intro i s t h
  obtain ⟨hcfg, hsel⟩ := exec_cfg_sel h
  have hcap := exec_capacity h
  refine ⟨hcap, hcap ▸ cap_lt_two_pow_countW _, fun j u hu => ?_⟩
  have hnext := exec_capacity hu
  rwa [hcfg, hsel] at hnext

end Sys2Proof.Machine

/-! ## Progress of a core and of the Byte Pump (spec 70 R176, 42 R121, R136) -/

namespace Sys2Proof.Machine

open Sys2Proof

/-- A view is the index it follows or one of the stages behind it (20 R47). -/
theorem viewOf_mem (p : FifoParams) (index : Nat) (pipe : List Nat) : viewOf p index pipe ∈ index :: pipe := by
  rw [viewOf]
  split
  · exact List.mem_cons_self
  · by_cases hlt : p.syncStages - 1 < pipe.length
    · rw [List.getD_eq_getElem _ _ hlt]
      exact List.mem_cons_of_mem _ (List.getElem_mem hlt)
    · rw [List.getD_eq_default _ _ (by omega)]
      exact List.mem_cons_self

/-- With S = 0 the producer's count is the occupancy: its view is the read index itself (20 R47). -/
theorem Fifo.cntP_eq_occupancy {p : FifoParams} (h : p.syncStages = 0) (f : Fifo) : f.cntP p = f.occupancy p := by
  rw [Fifo.cntP, Fifo.rview, viewOf, if_pos h, Fifo.occupancy]

/-- The consumer never sees a byte that is not there (20 R48): its view of wr lags, so its count is at most the
occupancy. -/
theorem Fifo.Inv.cntC_le_occupancy {p : FifoParams} {f : Fifo} (h : f.Inv p) : f.cntC p ≤ f.occupancy p := by
  obtain ⟨-, ⟨-, -, hviews⟩, -⟩ := h
  obtain heq | hmem := List.mem_cons.1 (viewOf_mem p f.wr f.wsync)
  · rw [Fifo.cntC, Fifo.wview, heq, Fifo.occupancy]
  · exact List.rel_of_pairwise_cons hviews hmem

/-- Adding 0 leaves a W-bit index as it is. -/
theorem addIdx_zero_of_lt {w a : Nat} (h : a < 2 ^ w) : addIdx w a 0 = a := by
  rw [addIdx_eq_mod, Nat.add_zero, Nat.mod_eq_of_lt h]

/-- The oldest live byte stands in the slot a pop reads. -/
theorem Fifo.Inv.liveByte_zero {p : FifoParams} {f : Fifo} (h : f.Inv p) :
    f.liveByte p 0 = Memory.read f.storage (f.rslot p) := by
  obtain ⟨⟨-, -, -, hrd, -⟩, -, -⟩ := h
  rw [Fifo.liveByte, addIdx_zero_of_lt hrd, Fifo.rslot]

/-- No cycle of a core that meets the invariant fails: a pop that fires finds a live slot, and live slots are written
(70 R176 (ii)). -/
theorem Fifo.Inv.cycle_ok {p : FifoParams} {f : Fifo} (h : f.Inv p) (io : Ports) :
    ∃ g o, f.cycle p io = .ok (g, o) := by
  cases hc : f.cycle p io with
  | ok r => exact ⟨r.1, r.2, rfl⟩
  | error e =>
    obtain ⟨-, -, hfire, hread⟩ := Fifo.cycle_error hc
    have hcnt : f.cntC p ≠ 0 := by
      simp only [Fifo.popFire, Fifo.emptyO, Bool.and_eq_true, Bool.not_eq_true', beq_eq_false_iff_ne] at hfire
      exact hfire.2
    have hle := h.cntC_le_occupancy
    have hzero := h.liveByte_zero
    obtain ⟨-, -, hlive⟩ := h
    have hsome := hlive 0 (by omega)
    rw [hzero, hread] at hsome
    cases hsome

/-- The pump's elaboration checks (42 R121), one by one. -/
theorem configRefusal_bytePump {c : Config} (hb : c.block = .bytePump) (h : configRefusal c = none) :
    elaborates c.inbound = true ∧ elaborates c.outbound = true ∧
    c.inbound.syncStages = 0 ∧ c.outbound.syncStages = 0 := by
  simp only [configRefusal, hb] at h
  split at h
  · next he =>
    split at h
    · next hp =>
      simp only [pumpChecks, Bool.and_eq_true, beq_iff_eq] at he hp
      exact ⟨he.1, he.2, hp.1.1, hp.1.2⟩
    · cases h
  · cases h

section PumpStep

variable {s t : State} {i : Input} {rest : List Input} (hs : s.stim = i :: rest) (hb : s.cfg.block = .bytePump)
  (hr : i.rst = false)

include hs hb hr

/-- The elaborated pump's step with rst = 0 is its running cycle on the next input's line word. -/
theorem step_bytePump (hc : configRefusal s.cfg = none) :
    step s = pumpRun (decodeLine i.line) { s with stim := rest } := by
  simp only [step, hs, runCycle, hc, hb, pumpCycle, hr, Bool.false_eq_true, if_false]

/-- What a step of the pump with rst = 0 can do when it gives a next state. -/
theorem step_bytePump_cases (h : step s = .next t) :
    configRefusal s.cfg = none ∧
    ∃ fi oi fo oo, s.inbound.cycle s.cfg.inbound s.pump.inPorts = .ok (fi, oi) ∧
      s.outbound.cycle s.cfg.outbound
        (s.pump.outPorts (decodeLine i.line) (s.outbound.emptyO s.cfg.outbound)) = .ok (fo, oo) ∧
      t = { s with
        stim := rest, inbound := fi, inboundOut := oi, outbound := fo, outboundOut := oo,
        pump := s.pump.edge s.cfg (decodeLine i.line) (s.outbound.emptyO s.cfg.outbound) oi oo,
        lineOut := s.pump.lineOut (decodeLine i.line) oo } := by
  obtain ⟨-, -, -, hc, -⟩ := step_cases h
  rw [step_bytePump hs hb hr hc] at h
  obtain ⟨-, hcycles⟩ := pumpRun_cases h
  exact ⟨hc, hcycles⟩

/-- From a state that meets the invariant the pump always steps (70 R176): out_q has a head in EMIT, and neither core's
cycle fails. -/
theorem State.Inv.step_bytePump_next (h : s.Inv) : ∃ t, step s = .next t := by
  obtain ⟨hc, -, -, hcores, hpump⟩ := h
  obtain ⟨hin, hout⟩ := hcores (by rw [hb]; decide)
  obtain ⟨hq, -⟩ := hpump hb
  obtain ⟨fi, oi, hi⟩ := hin.cycle_ok s.pump.inPorts
  obtain ⟨fo, oo, ho⟩ :=
    hout.cycle_ok (s.pump.outPorts (decodeLine i.line) (s.outbound.emptyO s.cfg.outbound))
  have hhead : ¬(s.pump.inSt = .emit ∧ s.pump.outQ = []) := fun he => hq.2 he.1 he.2
  rw [step_bytePump hs hb hr hc, pumpRun, if_neg hhead]
  simp only [hi, ho]
  exact ⟨_, rfl⟩

end PumpStep

end Sys2Proof.Machine

/-! ## The push of the held byte (spec 42 R125, R136) -/

namespace Sys2Proof.Machine

open Sys2Proof

section Push

variable (p : FifoParams) (d : Byte) (f : Fifo)

@[simp] theorem Ports.push_pushData : (Ports.push d).pushData = d := rfl
@[simp] theorem Fifo.pushFire_push : f.pushFire p (Ports.push d) = !f.fullO p := rfl
@[simp] theorem Fifo.popFire_push : f.popFire p (Ports.push d) = false := rfl

/-- A cycle that only pushes never fails: it reads no slot. -/
theorem Fifo.cycle_push : f.cycle p (Ports.push d) =
    .ok (f.edge p (Ports.push d), f.portOut p (Ports.push d) none) := rfl

/-- push_ok of a push is 1 exactly where the core is not full (40 R83). -/
@[simp] theorem Fifo.portOut_push_pushOk (data : Option Byte) :
    (f.portOut p (Ports.push d) data).pushOk = !f.fullO p := rfl

/-- push_res of a push is FULL where the core is full, and OK otherwise (30 R66). -/
theorem Fifo.portOut_push_pushRes (data : Option Byte) :
    (f.portOut p (Ports.push d) data).pushRes = some (if f.fullO p then .full else .ok) := by
  cases h : f.fullO p <;> simp [Fifo.portOut, pushResult, Ports.push, Fifo.pushFire, h]

end Push

/-- The successor of an index is one ahead of it, across the wrap too. -/
theorem subIdx_addIdx_one {w a : Nat} (hw : 0 < w) : subIdx w (addIdx w a 1) a = 1 := by
  have hone : 1 < 2 ^ w := Nat.one_lt_two_pow hw.ne'
  rw [subIdx, addIdx, BitVec.ofNat_toNat, BitVec.setWidth_eq, BitVec.add_comm, BitVec.add_sub_cancel,
    BitVec.toNat_ofNat, Nat.mod_eq_of_lt hone]

/-- At occupancy 0 both indices are equal (10 R25). -/
theorem Fifo.Inv.wr_eq_rd {p : FifoParams} {f : Fifo} (h : f.Inv p) (hocc : f.occupancy p = 0) : f.wr = f.rd := by
  obtain ⟨⟨-, -, hwr, hrd, -⟩, -, -⟩ := h
  rw [Fifo.occupancy, subIdx_of_lt hwr hrd] at hocc
  split at hocc <;> omega

/-- The byte pushed into an empty core that is not full is the core's whole content. -/
theorem Fifo.Inv.contents_push {p : FifoParams} {f : Fifo} (h : f.Inv p) (he : elaborates p = true)
    (hocc : f.occupancy p = 0) (hfull : f.fullO p = false) (d : Byte) :
    (f.edge p (Ports.push d)).contents p = [some d] := by
  obtain ⟨-, hw⟩ := cap_eq_two_pow_of_elaborates he
  have heq := h.wr_eq_rd hocc
  obtain ⟨⟨-, -, -, hrd, -⟩, -, -⟩ := h
  have hone : (f.edge p (Ports.push d)).occupancy p = 1 := by
    simp [Fifo.occupancy, hfull, heq, subIdx_addIdx_one (show 0 < p.idxW by omega)]
  have hbyte : (f.edge p (Ports.push d)).liveByte p 0 = some d := by
    simp [Fifo.liveByte, hfull, addIdx_zero_of_lt hrd, Fifo.wslot, heq]
  rw [Fifo.contents, hone, List.range_one, List.map_singleton, hbyte]

/-- An empty core is not full where its views lag nothing: C ≠ 0 (40 R80). -/
theorem Fifo.fullO_eq_false_of_empty {p : FifoParams} {f : Fifo} (he : elaborates p = true)
    (hsync : p.syncStages = 0) (hocc : f.occupancy p = 0) : f.fullO p = false := by
  obtain ⟨hcap, -⟩ := cap_eq_two_pow_of_elaborates he
  have hpos : 0 < p.cap := hcap ▸ Nat.two_pow_pos _
  rw [Fifo.fullO, Fifo.cntP_eq_occupancy hsync, hocc, beq_eq_false_iff_ne]
  exact hpos.ne

/-- Outside DELIVERED inbound is empty and not full, so a push into it never fails (42 R136). -/
theorem State.Inv.inbound_empty {s : State} (h : s.Inv) (hb : s.cfg.block = .bytePump)
    (hst : s.pump.inSt ≠ .delivered) :
    s.inbound.occupancy s.cfg.inbound = 0 ∧ s.inbound.fullO s.cfg.inbound = false := by
  obtain ⟨hc, -, -, -, hpump⟩ := h
  obtain ⟨he, -, hsync, -⟩ := configRefusal_bytePump hb hc
  obtain ⟨-, -, -, hempty, -⟩ := hpump hb
  exact ⟨hempty hst, Fifo.fullO_eq_false_of_empty he hsync (hempty hst)⟩

section ByteAvailable

variable {q : Pump} (h : q.inSt = .byteAvailable)

include h

/-- In BYTE_AVAILABLE inbound is driven as by the command PUSH rx_hold (42 R123). -/
theorem Pump.inPorts_byteAvailable : q.inPorts = Ports.push q.rxHold := by
  simp [Pump.inPorts, h, Ports.push]

/-- In BYTE_AVAILABLE nothing is pushed into outbound (42 R123). -/
theorem Pump.pushFire_outPorts_byteAvailable (l : LineIn) (e : Bool) (p : FifoParams) (f : Fifo) :
    f.pushFire p (q.outPorts l e) = false := by
  simp [Fifo.pushFire, Pump.outPorts, h]

/-- In BYTE_AVAILABLE no byte is taken from the line (42 R122). -/
theorem Pump.rxTake_byteAvailable (l : LineIn) : q.rxTake l = false := by
  simp [Pump.rxTake, h]

/-- The pump's registers after an edge in BYTE_AVAILABLE (42 R125): the inbound side counts a refused push and goes to
DELIVERED, the drainer's registers go their own way, and the others stay. -/
theorem Pump.edge_byteAvailable (c : Config) (l : LineIn) (e : Bool) (oi oo : PortOut) :
    q.edge c l e oi oo = { q with
      inSt := .delivered, rxDropCnt := if oi.pushOk then q.rxDropCnt else satInc c.dropW q.rxDropCnt,
      outSt := q.outStNext l e, txIrqEn := q.txIrqNext l e oo } := by
  simp only [Pump.edge, Pump.inboundSide, h, Pump.byteAvailableStep]

end ByteAvailable

/-- What a step of the pump in BYTE_AVAILABLE does: inbound runs a PUSH of rx_hold, outbound at most a pop, the inbound
side counts a refused push, and nothing is taken from the line. -/
theorem step_byteAvailable_cases {s t : State} {i : Input} {rest : List Input} (hs : s.stim = i :: rest)
    (hb : s.cfg.block = .bytePump) (hr : i.rst = false) (hst : s.pump.inSt = .byteAvailable)
    (h : step s = .next t) :
    configRefusal s.cfg = none ∧
    t.inbound = s.inbound.edge s.cfg.inbound (Ports.push s.pump.rxHold) ∧
    t.inboundOut = s.inbound.portOut s.cfg.inbound (Ports.push s.pump.rxHold) none ∧
    t.outbound.storage = s.outbound.storage ∧ t.outbound.wr = s.outbound.wr ∧ t.lineOut.rxTake = false ∧
    ∃ outSt txIrqEn, t.pump = { s.pump with
      inSt := .delivered, outSt := outSt, txIrqEn := txIrqEn,
      rxDropCnt := if t.inboundOut.pushOk then s.pump.rxDropCnt else satInc s.cfg.dropW s.pump.rxDropCnt } := by
  obtain ⟨hc, fi, oi, fo, oo, hi, ho, rfl⟩ := step_bytePump_cases hs hb hr h
  rw [Pump.inPorts_byteAvailable hst, Fifo.cycle_push] at hi
  obtain ⟨rfl, rfl⟩ := Prod.mk.inj (Except.ok.inj hi)
  obtain ⟨rfl, -⟩ := Fifo.cycle_edge rfl ho
  have hnoPush := Pump.pushFire_outPorts_byteAvailable hst (decodeLine i.line)
    (s.outbound.emptyO s.cfg.outbound) s.cfg.outbound s.outbound
  refine ⟨hc, rfl, rfl, ?_, ?_, Pump.rxTake_byteAvailable hst _, _, _, Pump.edge_byteAvailable hst ..⟩
  · simp [hnoPush]
  · simp [hnoPush]

/-- Settles O48: the step in BYTE_AVAILABLE is a PUSH of rx_hold on inbound; under the invariant inbound is empty there,
so the push fires and the byte is all inbound then holds. -/
theorem pumpPushesHeldByte : Obligations.PumpPushesHeldByte := by
  intro s i rest hs hb hr hst
  refine ⟨fun t ht => ?_, fun hinv => ?_⟩
  · obtain ⟨hc, hin, hout, hstorage, hwr, htake, _, _, hpump⟩ := step_byteAvailable_cases hs hb hr hst ht
    obtain ⟨he, -⟩ := configRefusal_bytePump hb hc
    have hok : t.inboundOut.pushOk = !s.inbound.fullO s.cfg.inbound := by
      rw [hout, Fifo.portOut_push_pushOk]
    have hslot : s.inbound.wslot s.cfg.inbound = s.inbound.wr % s.cfg.inbound.cap := slotOf_eq_mod_cap he _
    refine ⟨hout ▸ Fifo.portOut_push_pushRes .., fun hfull => ⟨?_, ?_⟩, fun hfull => ⟨?_, ?_⟩, ?_⟩
    · simp [hin, hfull, hslot]
    · simp [hpump, hok, hfull]
    · simp [hin, hfull]
    · simp [hpump, hok, hfull, satInc]
    · simp [hin, hpump, hstorage, hwr, htake]
  · obtain ⟨t, ht⟩ := hinv.step_bytePump_next hs hb hr
    obtain ⟨hc, hin, hout, -, -, -, _, _, hpump⟩ := step_byteAvailable_cases hs hb hr hst ht
    obtain ⟨he, -⟩ := configRefusal_bytePump hb hc
    obtain ⟨hocc, hfull⟩ := hinv.inbound_empty hb (by rw [hst]; decide)
    obtain ⟨-, -, -, hcores, -⟩ := hinv
    obtain ⟨hinbound, -⟩ := hcores (by rw [hb]; decide)
    have hok : t.inboundOut.pushOk = true := by simp [hout, hfull]
    refine ⟨t, ht, hok, ?_, ?_⟩
    · simp [hpump, hok]
    · rw [hin]
      exact hinbound.contents_push he hocc hfull _

end Sys2Proof.Machine

/-! ## Denied requests (spec 60 R151, R152) -/

namespace Sys2Proof.Machine

open Sys2Proof

section Denied

variable {p : FifoParams} {io : Ports} {f : Fifo}

/-- full_o is 1 where the producer counts C bytes (40 R91). -/
theorem Fifo.fullO_of_cntP (h : f.cntP p = p.cap) : f.fullO p = true := beq_iff_eq.mpr h

/-- empty_o is 1 where the consumer counts no byte (40 R92). -/
theorem Fifo.emptyO_of_cntC (h : f.cntC p = 0) : f.emptyO p = true := beq_iff_eq.mpr h

/-- No push fires on a full core (40 R83). -/
theorem Fifo.pushFire_of_full (h : f.fullO p = true) : f.pushFire p io = false := by
  simp [Fifo.pushFire, h]

/-- No pop fires on an empty core (40 R85). -/
theorem Fifo.popFire_of_empty (h : f.emptyO p = true) : f.popFire p io = false := by
  simp [Fifo.popFire, h]

/-- Where neither half fires, the edge only shifts the view pipelines (40 R94). -/
theorem Fifo.edge_of_no_fire (hpush : f.pushFire p io = false) (hpop : f.popFire p io = false) :
    f.edge p io = f.shiftViews p f := by
  simp [Fifo.edge, hpush, hpop]

/-- A cycle with rst = 0 whose pop does not fire never fails, and shows no byte (40 R96). -/
theorem Fifo.cycle_of_no_pop (hr : io.rst = false) (hpop : f.popFire p io = false) :
    f.cycle p io = .ok (f.edge p io, f.portOut p io none) := by
  simp [Fifo.cycle, Fifo.popData, hr, hpop]

/-- push_res of a requested push that does not fire is FULL (30 R66). -/
theorem Fifo.portOut_pushRes_full (hreq : io.pushReq = true) (hfire : f.pushFire p io = false)
    (data : Option Byte) : (f.portOut p io data).pushRes = some .full := by
  simp [Fifo.portOut, pushResult, hreq, hfire]

/-- pop_res of a requested pop that does not fire is EMPTY (30 R66). -/
theorem Fifo.portOut_popRes_empty (hreq : io.popReq = true) (hfire : f.popFire p io = false)
    (data : Option Byte) : (f.portOut p io data).popRes = some .empty := by
  simp [Fifo.portOut, popResult, hreq, hfire]

end Denied

section Commands

variable {c : Instr} {s t : State}

/-- A command other than RESET whose pop does not fire completes with its edge, and shows no byte. -/
theorem exec_of_no_pop (he : elaborates (paramsOf s.cfg s.sel) = true) (hr : (Ports.ofInstr c).rst = false)
    (hpop : (s.fifo s.sel).popFire (paramsOf s.cfg s.sel) (Ports.ofInstr c) = false) :
    exec c s = .next (s.setFifo s.sel ((s.fifo s.sel).edge (paramsOf s.cfg s.sel) (Ports.ofInstr c))
      ((s.fifo s.sel).portOut (paramsOf s.cfg s.sel) (Ports.ofInstr c) none)) :=
  exec_of_cycle he (Fifo.cycle_of_no_pop hr hpop)

/-- What a completed command other than RESET leaves on its core: the edge and the outputs of its ports. -/
theorem exec_edge (hr : (Ports.ofInstr c).rst = false) (h : exec c s = .next t) :
    t.fifo s.sel = (s.fifo s.sel).edge (paramsOf s.cfg s.sel) (Ports.ofInstr c) ∧
    ∃ data, t.out s.sel = (s.fifo s.sel).portOut (paramsOf s.cfg s.sel) (Ports.ofInstr c) data := by
  obtain ⟨-, f, o, hc, rfl⟩ := exec_cases h
  rw [State.fifo_setFifo, State.out_setFifo]
  exact Fifo.cycle_edge hr hc

/-- On a full core a command's push half is denied in its cycle: FULL, no byte stored, wr kept (60 R151). -/
theorem exec_full_denies_push (hr : (Ports.ofInstr c).rst = false) (hreq : (Ports.ofInstr c).pushReq = true)
    (hfull : (s.fifo s.sel).fullO (paramsOf s.cfg s.sel) = true) (h : exec c s = .next t) :
    (t.out s.sel).pushOk = false ∧ (t.out s.sel).pushRes = some .full ∧
    (t.fifo s.sel).storage = (s.fifo s.sel).storage ∧ (t.fifo s.sel).wr = (s.fifo s.sel).wr := by
  obtain ⟨hfifo, data, hout⟩ := exec_edge hr h
  have hfire := Fifo.pushFire_of_full (io := Ports.ofInstr c) hfull
  refine ⟨hout ▸ hfire, hout ▸ Fifo.portOut_pushRes_full hreq hfire data, ?_, ?_⟩ <;> simp [hfifo, hfire]

/-- On an empty core a command's pop half is denied in its cycle: the command completes, EMPTY, with no byte
(60 R152). -/
theorem exec_empty_denies_pop (he : elaborates (paramsOf s.cfg s.sel) = true)
    (hr : (Ports.ofInstr c).rst = false) (hreq : (Ports.ofInstr c).popReq = true)
    (hempty : (s.fifo s.sel).emptyO (paramsOf s.cfg s.sel) = true) :
    ∃ t, exec c s = .next t ∧ (t.out s.sel).popOk = false ∧ (t.out s.sel).popRes = some .empty ∧
      (t.out s.sel).popData = none ∧
      t.fifo s.sel = (s.fifo s.sel).edge (paramsOf s.cfg s.sel) (Ports.ofInstr c) := by
  have hfire := Fifo.popFire_of_empty (io := Ports.ofInstr c) hempty
  refine ⟨_, exec_of_no_pop he hr hfire, ?_⟩
  rw [State.out_setFifo, State.fifo_setFifo]
  exact ⟨hfire, Fifo.portOut_popRes_empty hreq hfire none, rfl, rfl⟩

/-- A PUSH to an elaborated core can be made in every state, and is answered OK or FULL. -/
theorem exec_push_answered (he : elaborates (paramsOf s.cfg s.sel) = true) (d : Byte) :
    ∃ t, exec (.push d) s = .next t ∧
      ((t.out s.sel).pushRes = some .ok ∨ (t.out s.sel).pushRes = some .full) := by
  refine ⟨_, exec_of_cycle he (Fifo.cycle_push ..), ?_⟩
  rw [State.out_setFifo, Fifo.portOut_push_pushRes]
  split
  · exact .inr rfl
  · exact .inl rfl

end Commands

/-- Settles O27: on a full core neither half of a PUSH fires, so its edge only shifts the views; the next state has the
same elaborated core, where every PUSH is answered. -/
theorem fullDeniesPushWithoutEffect : Obligations.FullDeniesPushWithoutEffect := by
  rintro s _ _ d rfl rfl he hcnt
  have hfull := Fifo.fullO_of_cntP hcnt
  refine ⟨?_, fun t ht => exec_full_denies_push rfl rfl hfull ht⟩
  obtain ⟨t, ht, -⟩ := exec_push_answered he d
  obtain ⟨hok, hres, -⟩ := exec_full_denies_push rfl rfl hfull ht
  obtain ⟨hfifo, -⟩ := exec_edge rfl ht
  obtain ⟨hcfg, hsel⟩ := exec_cfg_sel ht
  refine ⟨t, ht, hok, hres, ?_, fun d' => ?_⟩
  · exact hfifo.trans (Fifo.edge_of_no_fire (Fifo.pushFire_of_full hfull) (Fifo.popFire_push ..))
  · exact hsel ▸ exec_push_answered (by rwa [hcfg, hsel]) d'

/-- Settles O28: on an empty core neither half of a POP fires, so its edge only shifts the views; a PUSHPOP's edge
keeps rd. -/
theorem emptyDeniesPopWithoutEffect : Obligations.EmptyDeniesPopWithoutEffect := by
  rintro s _ _ d rfl rfl he hcnt
  have hempty := Fifo.emptyO_of_cntC hcnt
  constructor
  · obtain ⟨t, ht, hok, hres, hdata, hfifo⟩ := exec_empty_denies_pop (c := .pop) he rfl rfl hempty
    exact ⟨t, ht, hok, hres, hdata, hfifo.trans (Fifo.edge_of_no_fire rfl (Fifo.popFire_of_empty hempty))⟩
  · obtain ⟨t, ht, hok, hres, hdata, hfifo⟩ := exec_empty_denies_pop (c := .pushpop d) he rfl rfl hempty
    refine ⟨t, ht, hok, hres, hdata, ?_⟩
    rw [hfifo, Fifo.edge_rd, Fifo.popFire_of_empty hempty, if_neg Bool.false_ne_true]

end Sys2Proof.Machine

/-! ## W-bit indices around the wrap (spec 00 R13, 40 R100) -/

namespace Sys2Proof.Machine

open Sys2Proof

/-- The W-bit vector of a sum of indices. -/
theorem ofNat_addIdx (w a b : Nat) : BitVec.ofNat w (addIdx w a b) = BitVec.ofNat w a + BitVec.ofNat w b := by
  rw [addIdx, BitVec.ofNat_toNat, BitVec.setWidth_eq]

theorem addIdx_addIdx (w a b c : Nat) : addIdx w (addIdx w a b) c = addIdx w a (b + c) := by
  simp [addIdx_eq_mod, Nat.add_assoc]

/-- An index is its distance ahead of the other one. -/
theorem addIdx_subIdx {w a : Nat} (b : Nat) (ha : a < 2 ^ w) : addIdx w b (subIdx w a b) = a := by
  rw [addIdx, subIdx, BitVec.ofNat_toNat, BitVec.setWidth_eq, add_sub_cancel, BitVec.toNat_ofNat,
    Nat.mod_eq_of_lt ha]

/-- The W-bit difference as a natural number, without a case split. -/
theorem subIdx_eq_mod {w a b : Nat} (ha : a < 2 ^ w) (hb : b < 2 ^ w) :
    subIdx w a b = (a + 2 ^ w - b) % 2 ^ w := by
  rw [subIdx_of_lt ha hb]
  split
  · rw [show a + 2 ^ w - b = 2 ^ w + (a - b) by omega, Nat.add_mod_left, Nat.mod_eq_of_lt (by omega)]
  · rw [Nat.mod_eq_of_lt (by omega)]

/-- Advancing the index in front adds 1 to the distance, where the distance still fits W bits. -/
theorem subIdx_addIdx_left {w a b : Nat} (h : subIdx w a b + 1 < 2 ^ w) :
    subIdx w (addIdx w a 1) b = subIdx w a b + 1 := by
  have hw : 1 < 2 ^ w := by omega
  rw [subIdx, ofNat_addIdx, add_sub_right_comm, BitVec.toNat_add, BitVec.toNat_ofNat, Nat.mod_eq_of_lt hw]
  exact Nat.mod_eq_of_lt h

/-- Advancing the index behind takes 1 from the distance, where there is one. -/
theorem subIdx_addIdx_right {w a b : Nat} (h : 0 < subIdx w a b) :
    subIdx w a (addIdx w b 1) = subIdx w a b - 1 := by
  have hlt := subIdx_lt w a b
  have hone : (BitVec.ofNat w 1).toNat = 1 := by rw [BitVec.toNat_ofNat, Nat.mod_eq_of_lt (by omega)]
  have hle : BitVec.ofNat w 1 ≤ BitVec.ofNat w a - BitVec.ofNat w b := by
    rw [BitVec.le_def, hone]; exact h
  rw [subIdx, ofNat_addIdx, ← sub_sub, BitVec.toNat_sub_of_le hle, hone, subIdx]

/-- Settles O15: a distance below C has room for one more in W bits, and a distance that is not 0 has one to give. -/
theorem incrementKeepsOccupancyExact : Obligations.IncrementKeepsOccupancyExact := by
  intro w wr rd cap _ _ hcap
  exact ⟨fun h => subIdx_addIdx_left (by omega), subIdx_addIdx_right⟩

end Sys2Proof.Machine

/-! ## A core as a queue (spec 20 R48, 40 section 6, 70 R176) -/

namespace Sys2Proof.Machine

open Sys2Proof

/-- A view is the last of the index and the stages behind it (20 R47). -/
theorem viewOf_eq_getLast {p : FifoParams} {pipe : List Nat} (index : Nat) (h : pipe.length = p.syncStages) :
    viewOf p index pipe = (index :: pipe).getLast (List.cons_ne_nil _ _) := by
  rw [viewOf, List.getLast_eq_getElem]
  cases pipe with
  | nil => simp [← h]
  | cons x pipe => simp [← h]

theorem shiftPipe_length {p : FifoParams} {a : Nat} {pipe : List Nat} (h : pipe.length = p.syncStages) :
    (shiftPipe p a pipe).length = p.syncStages := by
  simp [shiftPipe, h]

/-- A shifted pipeline holds only what stood before: the index and the stages. -/
theorem mem_of_mem_shiftPipe {p : FifoParams} {a x : Nat} {pipe : List Nat} (h : x ∈ shiftPipe p a pipe) :
    x ∈ a :: pipe :=
  List.mem_of_mem_take h

theorem cap_pos {p : FifoParams} (h : elaborates p = true) : 0 < p.cap := by
  obtain ⟨hcap, -⟩ := cap_eq_two_pow_of_elaborates h
  exact hcap ▸ Nat.two_pow_pos _

/-- W bits hold C: W ≥ CAP_LOG2 + 1 (40 R80). -/
theorem cap_lt_two_pow_idxW {p : FifoParams} (h : elaborates p = true) : p.cap < 2 ^ p.idxW := by
  obtain ⟨hcap, hw⟩ := cap_eq_two_pow_of_elaborates h
  rw [hcap]
  exact Nat.pow_lt_pow_right (by decide) hw

/-- The slot of an index that may have wrapped: C divides 2^W. -/
theorem slotOf_addIdx {p : FifoParams} (h : elaborates p = true) (a i : Nat) :
    slotOf p (addIdx p.idxW a i) = (a + i) % p.cap := by
  obtain ⟨hcap, hw⟩ := cap_eq_two_pow_of_elaborates h
  rw [slotOf_eq_mod_cap h, addIdx_eq_mod, hcap]
  exact Nat.mod_mod_of_dvd _ (Nat.pow_dvd_pow 2 (by omega))

/-- Fewer than C places apart, slots differ. -/
theorem slotOf_addIdx_ne {p : FifoParams} (h : elaborates p = true) (a : Nat) {i j : Nat} (hij : i < j)
    (hj : j < i + p.cap) : slotOf p (addIdx p.idxW a i) ≠ slotOf p (addIdx p.idxW a j) := by
  rw [slotOf_addIdx h, slotOf_addIdx h]
  intro heq
  have hdvd : p.cap ∣ j - i := by
    have := (Nat.modEq_iff_dvd' (by omega)).1 (show a + i ≡ a + j [MOD p.cap] from heq)
    rwa [show a + j - (a + i) = j - i by omega] at this
  exact absurd (Nat.le_of_dvd (by omega) hdvd) (by omega)

theorem slotOf_lt_cap {p : FifoParams} (h : elaborates p = true) (index : Nat) : slotOf p index < p.cap := by
  rw [slotOf_eq_mod_cap h]
  exact Nat.mod_lt _ (cap_pos h)

/-- The contents place by place. -/
theorem Fifo.contents_getElem? (p : FifoParams) (f : Fifo) (j : Nat) :
    (f.contents p)[j]? = if j < f.occupancy p then some (f.liveByte p j) else none := by
  rw [Fifo.contents, List.getElem?_map]
  split <;> simp [*]

theorem Fifo.contents_length (p : FifoParams) (f : Fifo) : (f.contents p).length = f.occupancy p := by
  simp [Fifo.contents]

/-- A core holds nothing exactly at occupancy 0. -/
theorem Fifo.contents_eq_nil {p : FifoParams} {f : Fifo} : f.contents p = [] ↔ f.occupancy p = 0 := by
  rw [← List.length_eq_zero_iff, Fifo.contents_length]

/-- What a firing push means: requested, and the producer does not count C (40 R83). -/
theorem Fifo.pushFire_iff {p : FifoParams} {io : Ports} {f : Fifo} :
    f.pushFire p io = true ↔ io.pushReq = true ∧ f.cntP p ≠ p.cap := by
  simp [Fifo.pushFire, Fifo.fullO]

/-- What a firing pop means: requested, and the consumer does not count 0 (40 R85). -/
theorem Fifo.popFire_iff {p : FifoParams} {io : Ports} {f : Fifo} :
    f.popFire p io = true ↔ io.popReq = true ∧ f.cntC p ≠ 0 := by
  simp [Fifo.popFire, Fifo.emptyO]

section Views

variable {p : FifoParams} {f : Fifo} (h : f.Inv p)

include h

/-- The producer's view lags most: no stage, and not rd itself, is farther from wr (20 R48). -/
theorem Fifo.Inv.le_cntP {x : Nat} (hx : x ∈ f.rd :: f.rsync) : subIdx p.idxW f.wr x ≤ f.cntP p := by
  obtain ⟨⟨-, -, -, -, -, hlen, -⟩, ⟨hviews, -⟩, -⟩ := h
  rw [Fifo.cntP, Fifo.rview, viewOf_eq_getLast _ hlen]
  exact hviews.rel_getLast_of_rel_getLast_getLast hx le_rfl

/-- The consumer's view lags most: no stage, and not wr itself, is nearer to rd (20 R48). -/
theorem Fifo.Inv.cntC_le {y : Nat} (hy : y ∈ f.wr :: f.wsync) : f.cntC p ≤ subIdx p.idxW y f.rd := by
  obtain ⟨⟨-, -, -, -, hlen, -⟩, ⟨-, -, hviews⟩, -⟩ := h
  rw [Fifo.cntC, Fifo.wview, viewOf_eq_getLast _ hlen]
  exact hviews.rel_getLast_of_rel_getLast_getLast hy le_rfl

/-- No stage of the producer's view is nearer to wr than rd itself. -/
theorem Fifo.Inv.occupancy_le {x : Nat} (hx : x ∈ f.rd :: f.rsync) : f.occupancy p ≤ subIdx p.idxW f.wr x := by
  obtain ⟨-, ⟨hviews, -⟩, -⟩ := h
  rcases List.mem_cons.1 hx with rfl | hx
  · exact le_rfl
  · exact List.rel_of_pairwise_cons hviews hx

/-- No stage of the consumer's view is farther from rd than wr itself. -/
theorem Fifo.Inv.le_occupancy {y : Nat} (hy : y ∈ f.wr :: f.wsync) : subIdx p.idxW y f.rd ≤ f.occupancy p := by
  obtain ⟨-, ⟨-, -, hviews⟩, -⟩ := h
  rcases List.mem_cons.1 hy with rfl | hy
  · exact le_rfl
  · exact List.rel_of_pairwise_cons hviews hy

theorem Fifo.Inv.cntP_le_cap : f.cntP p ≤ p.cap := by
  obtain ⟨-, ⟨-, hcap, -⟩, -⟩ := h
  exact hcap _ (viewOf_mem p f.rd f.rsync)

theorem Fifo.Inv.occupancy_le_cntP : f.occupancy p ≤ f.cntP p := h.le_cntP List.mem_cons_self

theorem Fifo.Inv.occupancy_le_cap : f.occupancy p ≤ p.cap := h.occupancy_le_cntP.trans h.cntP_le_cap

/-- The write index is occupancy places ahead of the read index (10 R25). -/
theorem Fifo.Inv.wr_eq_addIdx : f.wr = addIdx p.idxW f.rd (f.occupancy p) := by
  obtain ⟨⟨-, -, hwr, -⟩, -, -⟩ := h
  exact (addIdx_subIdx f.rd hwr).symm

/-- A push that fires finds fewer than C bytes, however stale its view. -/
theorem Fifo.Inv.cntP_lt_of_pushFire {io : Ports} (hfire : f.pushFire p io = true) : f.cntP p < p.cap :=
  lt_of_le_of_ne h.cntP_le_cap (Fifo.pushFire_iff.1 hfire).2

/-- A pop that fires finds a byte, however stale its view. -/
theorem Fifo.Inv.occupancy_pos_of_popFire {io : Ports} (hfire : f.popFire p io = true) : 0 < f.occupancy p :=
  (Nat.pos_of_ne_zero (Fifo.popFire_iff.1 hfire).2).trans_le h.cntC_le_occupancy

end Views

/-- Settles O33: the views order the counts, and the farthest view is at most C from wr. -/
theorem staleViewsAreSafe : Obligations.StaleViewsAreSafe := fun _ _ h =>
  ⟨h.occupancy_le_cntP, h.cntP_le_cap, h.cntC_le_occupancy, h.occupancy_le_cap⟩

/-- Settles O34: wr is occupancy places ahead of rd, and where both halves fire the occupancy is neither 0 nor C. -/
theorem firingHalvesUseDifferentSlots : Obligations.FiringHalvesUseDifferentSlots := by
  intro p f d he h hpush hpop
  have hpos := h.occupancy_pos_of_popFire hpop
  have hlt := h.occupancy_le_cntP.trans_lt (h.cntP_lt_of_pushFire hpush)
  have hne := slotOf_addIdx_ne he f.rd hpos (by omega)
  have hwr := h.wr_eq_addIdx
  obtain ⟨⟨-, -, -, hrd, -⟩, -, -⟩ := h
  rw [addIdx_zero_of_lt hrd, ← hwr] at hne
  exact hne.symm

section Edge

variable {p : FifoParams} {f : Fifo} (he : elaborates p = true) (h : f.Inv p) (io : Ports)

include h

/-- The read index after an edge, the two cases in one. -/
theorem Fifo.Inv.edge_rd_eq : (f.edge p io).rd = addIdx p.idxW f.rd (f.popFire p io).toNat := by
  obtain ⟨⟨-, -, -, hrd, -⟩, -, -⟩ := h
  cases hpop : f.popFire p io <;> simp [hpop, addIdx_zero_of_lt hrd]

/-- A firing pop brings rd one nearer to wr and to every stage of the view of it. -/
theorem Fifo.Inv.subIdx_edge_rd {y : Nat} (hy : y ∈ f.wr :: f.wsync) :
    subIdx p.idxW y (f.edge p io).rd + (f.popFire p io).toNat = subIdx p.idxW y f.rd := by
  cases hpop : f.popFire p io with
  | false => simp [hpop]
  | true =>
    have hpos : 0 < subIdx p.idxW y f.rd :=
      (Nat.pos_of_ne_zero (Fifo.popFire_iff.1 hpop).2).trans_le (h.cntC_le hy)
    simp [hpop, subIdx_addIdx_right hpos, Nat.sub_add_cancel hpos]

include he

/-- A firing push takes wr one farther from rd and from every stage of the view of it. -/
theorem Fifo.Inv.subIdx_edge_wr {x : Nat} (hx : x ∈ f.rd :: f.rsync) :
    subIdx p.idxW (f.edge p io).wr x = subIdx p.idxW f.wr x + (f.pushFire p io).toNat := by
  cases hpush : f.pushFire p io with
  | false => simp [hpush]
  | true =>
    have hlt := (h.le_cntP hx).trans_lt (h.cntP_lt_of_pushFire hpush)
    have hcap := cap_lt_two_pow_idxW he
    simp [hpush, subIdx_addIdx_left (show subIdx p.idxW f.wr x + 1 < 2 ^ p.idxW by omega)]

/-- The occupancy counts the bytes that fired in and out. -/
theorem Fifo.Inv.occupancy_edge : (f.edge p io).occupancy p + (f.popFire p io).toNat =
    f.occupancy p + (f.pushFire p io).toNat := by
  have hwr := h.subIdx_edge_wr he io List.mem_cons_self
  cases hpop : f.popFire p io with
  | false => simpa [Fifo.occupancy, hpop] using hwr
  | true =>
    have hpos := h.occupancy_pos_of_popFire hpop
    rw [Fifo.occupancy] at hpos
    rw [Fifo.occupancy, Fifo.edge_rd, if_pos hpop, subIdx_addIdx_right (by omega), hwr, Fifo.occupancy,
      Bool.toNat_true]
    omega

omit he in
/-- What storage holds after an edge: the pushed byte behind the newest live one, else what it held. -/
theorem Fifo.Inv.read_edge (k : Nat) : Memory.read (f.edge p io).storage k =
    if f.pushFire p io = true ∧ k = slotOf p (addIdx p.idxW f.rd (f.occupancy p)) then some io.pushData
    else Memory.read f.storage k := by
  rw [← h.wr_eq_addIdx, Fifo.edge_storage]
  cases hpush : f.pushFire p io <;> simp [Memory.read_write, Fifo.wslot]

/-- The live bytes after an edge: one place nearer where a pop fired, and the pushed byte behind them. -/
theorem Fifo.Inv.liveByte_edge {j : Nat} (hj : j < (f.edge p io).occupancy p) :
    (f.edge p io).liveByte p j =
      if j + (f.popFire p io).toNat < f.occupancy p then f.liveByte p (j + (f.popFire p io).toNat)
      else some io.pushData := by
  have hocc := h.occupancy_edge he io
  have hcap := h.occupancy_le_cap
  have hpush := Bool.toNat_le (f.pushFire p io)
  rw [Fifo.liveByte, h.edge_rd_eq io, addIdx_addIdx, Nat.add_comm _ j, h.read_edge io]
  by_cases hlive : j + (f.popFire p io).toNat < f.occupancy p
  · rw [if_pos hlive]
    refine if_neg fun hslot => ?_
    have hlt := h.occupancy_le_cntP.trans_lt (h.cntP_lt_of_pushFire hslot.1)
    exact slotOf_addIdx_ne he f.rd hlive (by omega) hslot.2
  · rw [if_neg hlive]
    refine if_pos ⟨?_, ?_⟩
    · rw [← Bool.toNat_eq_one]; omega
    · rw [show j + (f.popFire p io).toNat = f.occupancy p by omega]

/-- An edge acts on the contents as on a queue: a firing pop removes the oldest byte, a firing push appends its own
(40 section 6). -/
theorem Fifo.Inv.contents_edge : (f.edge p io).contents p =
    (if f.popFire p io then (f.contents p).tail else f.contents p) ++
      (if f.pushFire p io then [some io.pushData] else []) := by
  have hocc := h.occupancy_edge he io
  have hdrop : (if f.popFire p io then (f.contents p).tail else f.contents p) =
      (f.contents p).drop (f.popFire p io).toNat := by cases f.popFire p io <;> simp
  have hpushed : (if f.pushFire p io then [some io.pushData] else []) =
      List.replicate (f.pushFire p io).toNat (some io.pushData) := by cases f.pushFire p io <;> rfl
  rw [hdrop, hpushed]
  refine List.ext_getElem? fun j => ?_
  rw [List.getElem?_append, List.length_drop, Fifo.contents_length, List.getElem?_drop, Fifo.contents_getElem?,
    Fifo.contents_getElem?, List.getElem?_replicate, Nat.add_comm _ j]
  have hpop : f.popFire p io = true → 0 < f.occupancy p := h.occupancy_pos_of_popFire
  have hpop' : (f.popFire p io).toNat ≤ f.occupancy p := by
    cases hp : f.popFire p io <;> simp [hp] at hpop ⊢; exact hpop
  by_cases hj : j < (f.edge p io).occupancy p
  · rw [if_pos hj, h.liveByte_edge he io hj]
    by_cases hlive : j + (f.popFire p io).toNat < f.occupancy p
    · rw [if_pos hlive, if_pos (by omega), if_pos hlive]
    · rw [if_neg hlive, if_neg (by omega), if_pos (by omega)]
  · rw [if_neg hj]
    by_cases hlive : j < f.occupancy p - (f.popFire p io).toNat
    · omega
    · rw [if_neg hlive, if_neg (by omega)]

/-- An edge keeps what the widths of the registers admit. -/
theorem Fifo.Inv.edge_wellFormed : (f.edge p io).WellFormed p := by
  obtain ⟨⟨hwf, hslots, hwr, hrd, hwlen, hrlen, hws, hrs⟩, -, -⟩ := h
  have hwsync : ∀ x ∈ f.wr :: f.wsync, x < 2 ^ p.idxW := List.forall_mem_cons.2 ⟨hwr, hws⟩
  have hrsync : ∀ x ∈ f.rd :: f.rsync, x < 2 ^ p.idxW := List.forall_mem_cons.2 ⟨hrd, hrs⟩
  refine ⟨?_, ?_, ?_, ?_, ?_, ?_, ?_, ?_⟩
  · rw [Fifo.edge_storage]; split
    · exact Memory.wf_write _ _ hwf
    · exact hwf
  · rw [Fifo.edge_storage]; split
    · intro x hx
      rcases Memory.mem_write hx with rfl | hx
      · exact slotOf_lt_cap he _
      · exact hslots x hx
    · exact hslots
  · rw [Fifo.edge_wr]; split
    · exact addIdx_lt ..
    · exact hwr
  · rw [Fifo.edge_rd]; split
    · exact addIdx_lt ..
    · exact hrd
  · rw [Fifo.edge_wsync]; exact shiftPipe_length hwlen
  · rw [Fifo.edge_rsync]; exact shiftPipe_length hrlen
  · rw [Fifo.edge_wsync]; exact fun x hx => hwsync x (mem_of_mem_shiftPipe hx)
  · rw [Fifo.edge_rsync]; exact fun x hx => hrsync x (mem_of_mem_shiftPipe hx)

/-- An edge keeps the views in order: every stage takes the value of the one before it, whose distances are known. -/
theorem Fifo.Inv.edge_viewsOrdered : (f.edge p io).ViewsOrdered p := by
  have hwr := fun x hx => h.subIdx_edge_wr he io (x := x) hx
  have hrd := fun y hy => h.subIdx_edge_rd io (y := y) hy
  have hocc := h.occupancy_edge he io
  have hle := fun x hx => h.le_cntP (x := x) hx
  have hfirstR := fun x hx => h.occupancy_le (x := x) hx
  have hfirstW := fun y hy => h.le_occupancy (y := y) hy
  have hcntP := h.cntP_le_cap
  have hfire : f.pushFire p io = true → f.cntP p < p.cap := h.cntP_lt_of_pushFire
  have hroom : f.cntP p + (f.pushFire p io).toNat ≤ p.cap := by
    cases hp : f.pushFire p io <;> simp [hp] at hfire ⊢ <;> omega
  have hoccP := h.occupancy_le_cntP
  obtain ⟨-, ⟨hr, hcap, hw⟩, -⟩ := h
  rw [Fifo.ViewsOrdered, Fifo.edge_rsync, Fifo.edge_wsync]
  refine ⟨List.pairwise_cons.2 ⟨fun x hx => ?_, ?_⟩, List.forall_mem_cons.2 ⟨?_, fun x hx => ?_⟩,
    List.pairwise_cons.2 ⟨fun y hy => ?_, ?_⟩⟩
  · have := hwr x (mem_of_mem_shiftPipe hx)
    have := hfirstR x (mem_of_mem_shiftPipe hx)
    simp only [Fifo.occupancy] at *
    omega
  · refine (hr.sublist (List.take_sublist ..)).imp_of_mem fun hx hy hxy => ?_
    have := hwr _ (mem_of_mem_shiftPipe hx)
    have := hwr _ (mem_of_mem_shiftPipe hy)
    omega
  · show (f.edge p io).occupancy p ≤ p.cap
    omega
  · have := hwr x (mem_of_mem_shiftPipe hx)
    have := hle x (mem_of_mem_shiftPipe hx)
    omega
  · have := hrd y (mem_of_mem_shiftPipe hy)
    have := hfirstW y (mem_of_mem_shiftPipe hy)
    simp only [Fifo.occupancy] at *
    omega
  · refine (hw.sublist (List.take_sublist ..)).imp_of_mem fun hx hy hxy => ?_
    have := hrd _ (mem_of_mem_shiftPipe hx)
    have := hrd _ (mem_of_mem_shiftPipe hy)
    omega

/-- An edge keeps the invariant of a core (70 R176). -/
theorem Fifo.Inv.edge : (f.edge p io).Inv p := by
  refine ⟨h.edge_wellFormed he io, h.edge_viewsOrdered he io, fun j hj => ?_⟩
  rw [h.liveByte_edge he io hj]
  split
  · next hlive =>
    obtain ⟨-, -, hwritten⟩ := h
    exact hwritten _ hlive
  · rfl

end Edge

end Sys2Proof.Machine

/-! ## The commands on their core (spec 40 section 3) -/

namespace Sys2Proof.Machine

open Sys2Proof

/-- The byte a cycle with rst = 0 pops: that of the read slot where the pop fires (40 R86). -/
def Fifo.poppedByte (p : FifoParams) (io : Ports) (f : Fifo) : Option Byte :=
  if f.popFire p io then Memory.read f.storage (f.rslot p) else none

section Cycle

variable {p : FifoParams} {io : Ports} {f g : Fifo} {o : PortOut} (hr : io.rst = false)

include hr

/-- A cycle with rst = 0 completes where the slot of a firing pop has been written: an edge and its ports. -/
theorem Fifo.cycle_of_written (hw : f.popFire p io = true → (Memory.read f.storage (f.rslot p)).isSome = true) :
    f.cycle p io = .ok (f.edge p io, f.portOut p io (f.poppedByte p io)) := by
  cases hpop : f.popFire p io with
  | false => simp [Fifo.cycle_of_no_pop hr hpop, Fifo.poppedByte, hpop]
  | true =>
    obtain ⟨b, hb⟩ := Option.isSome_iff_exists.1 (hw hpop)
    simp [Fifo.cycle, Fifo.popData, Fifo.poppedByte, hr, hpop, hb]

/-- What a completed cycle with rst = 0 gives: an edge, and its ports with the popped byte. -/
theorem Fifo.cycle_run (h : f.cycle p io = .ok (g, o)) :
    g = f.edge p io ∧ o = f.portOut p io (f.poppedByte p io) := by
  obtain ⟨h1, -⟩ | ⟨-, hp, rfl, rfl⟩ | ⟨b, -, hp, hb, rfl, rfl⟩ := Fifo.cycle_cases h
  · simp [hr] at h1
  · simp [Fifo.poppedByte, hp]
  · simp [Fifo.poppedByte, hp, hb]

end Cycle

/-- A firing pop of a slot nothing has written faults (10 R22). -/
theorem Fifo.cycle_of_unwritten {p : FifoParams} {io : Ports} {f : Fifo} (hr : io.rst = false)
    (hpop : f.popFire p io = true) (hm : Memory.read f.storage (f.rslot p) = none) :
    f.cycle p io = .error .unwrittenSlot := by
  simp [Fifo.cycle, Fifo.popData, hr, hpop, hm]

section Halves

variable {p : FifoParams} {io : Ports} {f : Fifo} (he : elaborates p = true) (data : Option Byte)

include he

/-- The push half of a cycle where the producer does not count C: PUSH's effects (40 R84). -/
theorem Fifo.pushHalf_fires (hreq : io.pushReq = true) (hcnt : f.cntP p ≠ p.cap) :
    (f.portOut p io data).pushOk = true ∧ (f.portOut p io data).pushRes = some .ok ∧
    (f.edge p io).wr = (f.wr + 1) % 2 ^ p.idxW ∧
    ∀ k, Memory.read (f.edge p io).storage k =
      if k = f.wr % p.cap then some io.pushData else Memory.read f.storage k := by
  have hfire : f.pushFire p io = true := Fifo.pushFire_iff.2 ⟨hreq, hcnt⟩
  refine ⟨hfire, ?_, ?_, fun k => ?_⟩
  · simp [Fifo.portOut, pushResult, hreq, hfire]
  · rw [Fifo.edge_wr, if_pos hfire, addIdx_eq_mod]
  · rw [Fifo.edge_storage, if_pos hfire, Memory.read_write, Fifo.wslot, slotOf_eq_mod_cap he]

omit he in
/-- The push half of a cycle where the producer counts C: FULL, nothing stored (40 R84). -/
theorem Fifo.pushHalf_denied (hreq : io.pushReq = true) (hcnt : f.cntP p = p.cap) :
    (f.portOut p io data).pushOk = false ∧ (f.portOut p io data).pushRes = some .full ∧
    (f.edge p io).wr = f.wr ∧ (f.edge p io).storage = f.storage := by
  have hfire := Fifo.pushFire_of_full (io := io) (Fifo.fullO_of_cntP hcnt)
  exact ⟨hfire, Fifo.portOut_pushRes_full hreq hfire data, by simp [hfire], by simp [hfire]⟩

/-- The pop half of a cycle where the consumer does not count 0: POP's effects (40 R86). -/
theorem Fifo.popHalf_fires (hreq : io.popReq = true) (hcnt : f.cntC p ≠ 0) :
    (f.portOut p io data).popOk = true ∧ (f.portOut p io data).popRes = some .ok ∧
    f.poppedByte p io = Memory.read f.storage (f.rd % p.cap) ∧
    (f.edge p io).rd = (f.rd + 1) % 2 ^ p.idxW := by
  have hfire : f.popFire p io = true := Fifo.popFire_iff.2 ⟨hreq, hcnt⟩
  refine ⟨hfire, ?_, ?_, ?_⟩
  · simp [Fifo.portOut, popResult, hreq, hfire]
  · rw [Fifo.poppedByte, if_pos hfire, Fifo.rslot, slotOf_eq_mod_cap he]
  · rw [Fifo.edge_rd, if_pos hfire, addIdx_eq_mod]

omit he in
/-- The pop half of a cycle where the consumer counts 0: EMPTY, no byte (40 R86). -/
theorem Fifo.popHalf_denied (hreq : io.popReq = true) (hcnt : f.cntC p = 0) :
    (f.portOut p io data).popOk = false ∧ (f.portOut p io data).popRes = some .empty ∧
    f.poppedByte p io = none ∧ (f.edge p io).rd = f.rd := by
  have hfire := Fifo.popFire_of_empty (io := io) (Fifo.emptyO_of_cntC hcnt)
  exact ⟨hfire, Fifo.portOut_popRes_empty hreq hfire data, by simp [Fifo.poppedByte, hfire], by simp [hfire]⟩

/-- The written-slot condition of 10 section 2, on the slot a firing pop reads. -/
theorem Fifo.rslot_written (hw : f.cntC p ≠ 0 → (Memory.read f.storage (f.rd % p.cap)).isSome = true) :
    f.popFire p io = true → (Memory.read f.storage (f.rslot p)).isSome = true := by
  intro hfire
  rw [Fifo.rslot, slotOf_eq_mod_cap he]
  exact hw (Fifo.popFire_iff.1 hfire).2

end Halves

/-- Settles O19: neither half of a NOP fires. -/
theorem nopOnlyShiftsViews : Obligations.NopOnlyShiftsViews := by
  rintro s _ _ rfl rfl he
  have hexec := exec_of_no_pop (c := .nop) he rfl rfl
  rw [Fifo.edge_of_no_fire rfl rfl] at hexec
  exact ⟨_, hexec, rfl, rfl, rfl, rfl, rfl⟩

/-- Settles O20: a PUSH reads no slot, and is its push half. -/
theorem pushStoresByteOrReportsFull : Obligations.PushStoresByteOrReportsFull := by
  rintro s _ _ d rfl rfl he
  have hexec := exec_of_cycle (c := .push d) he (Fifo.cycle_push ..)
  refine ⟨_, _, hexec, Fifo.edge_rd .., Fifo.edge_wsync .., Fifo.edge_rsync .., rfl, rfl, rfl,
    Fifo.pushHalf_fires he none rfl, Fifo.pushHalf_denied none rfl⟩

/-- Settles O21: a POP completes where its slot is written, and is its pop half. -/
theorem popReturnsByteOrReportsEmpty : Obligations.PopReturnsByteOrReportsEmpty := by
  rintro s _ _ rfl rfl he hw
  refine ⟨_, _, exec_of_cycle he (Fifo.cycle_of_written rfl (Fifo.rslot_written he hw)), Fifo.edge_wr ..,
    Fifo.edge_storage .., Fifo.edge_wsync .., Fifo.edge_rsync .., rfl, rfl,
    Fifo.popHalf_fires he _ rfl, Fifo.popHalf_denied _ rfl⟩

/-- Settles O22: a PUSHPOP completes where POP does, and is both halves. -/
theorem pushpopRunsBothHalvesOnPreEdgeState : Obligations.PushpopRunsBothHalvesOnPreEdgeState := by
  rintro s _ _ d rfl rfl he hw
  exact ⟨_, _, exec_of_cycle he (Fifo.cycle_of_written rfl (Fifo.rslot_written he hw)),
    Fifo.edge_wsync .., Fifo.edge_rsync .., Fifo.pushHalf_fires he _ rfl, Fifo.pushHalf_denied _ rfl,
    Fifo.popHalf_fires he _ rfl, Fifo.popHalf_denied _ rfl⟩

/-- Settles O24: the pop fires, and its slot holds no byte. -/
theorem popOfUnwrittenSlotFaults : Obligations.PopOfUnwrittenSlotFaults := by
  rintro s _ _ d rfl rfl he hcnt hm
  rw [← slotOf_eq_mod_cap he] at hm
  have hfaults : ∀ c, (Ports.ofInstr c).rst = false → (Ports.ofInstr c).popReq = true →
      exec c s = .fault .unwrittenSlot := by
    intro c hr hreq
    rw [exec_eq_command, State.command, if_pos he,
      Fifo.cycle_of_unwritten hr (Fifo.popFire_iff.2 ⟨hreq, hcnt⟩) hm]
  exact ⟨hfaults .pop rfl rfl, hfaults (.pushpop d) rfl rfl⟩

/-! ### Reset -/

/-- The view of an index 0 through stages that are all 0. -/
theorem viewOf_zero (p : FifoParams) (n : Nat) : viewOf p 0 (List.replicate n 0) = 0 := by
  have hmem := viewOf_mem p 0 (List.replicate n 0)
  rw [← List.replicate_succ] at hmem
  exact List.eq_of_mem_replicate hmem

section Reset

variable (p : FifoParams) (f : Fifo)

@[simp] theorem Fifo.cntP_resetRegs : (f.resetRegs p).cntP p = 0 := by
  simp [Fifo.cntP, Fifo.rview, viewOf_zero]

@[simp] theorem Fifo.cntC_resetRegs : (f.resetRegs p).cntC p = 0 := by
  simp [Fifo.cntC, Fifo.wview, viewOf_zero]

@[simp] theorem Fifo.occupancy_resetRegs : (f.resetRegs p).occupancy p = 0 := by
  simp [Fifo.occupancy]

@[simp] theorem Fifo.resetRegs_resetRegs : (f.resetRegs p).resetRegs p = f.resetRegs p := rfl

end Reset

@[simp] theorem State.setFifo_setFifo (s : State) (k : CoreSel) (f g : Fifo) (o o' : PortOut) :
    (s.setFifo k f o).setFifo k g o' = s.setFifo k g o' := by cases k <;> rfl

/-- A RESET always completes on an elaborated core. -/
theorem exec_reset {s : State} (he : elaborates (paramsOf s.cfg s.sel) = true) :
    exec .reset s = .next (s.setFifo s.sel ((s.fifo s.sel).resetRegs (paramsOf s.cfg s.sel))
      ((s.fifo s.sel).resetOut (paramsOf s.cfg s.sel))) :=
  exec_of_cycle he rfl

/-- Settles O23: reset registers are both indices and every stage at 0, which reads as empty and not full. -/
theorem resetGivesFreshBuffer : Obligations.ResetGivesFreshBuffer := by
  rintro s _ _ rfl rfl he
  refine ⟨_, _, exec_reset he, rfl, rfl, rfl, rfl, rfl, rfl, rfl, rfl, rfl, rfl, ?_, ?_, ?_, ?_⟩
  · simp [Fifo.countO]
  · simp [Fifo.emptyO]
  · simpa [Fifo.fullO] using (cap_pos he).ne
  · have hagain := exec_reset (s := s.setFifo s.sel ((s.fifo s.sel).resetRegs (paramsOf s.cfg s.sel))
      ((s.fifo s.sel).resetOut (paramsOf s.cfg s.sel))) (by simpa using he)
    simp only [State.setFifo_sel, State.setFifo_cfg, State.fifo_setFifo, State.setFifo_setFifo,
      Fifo.resetRegs_resetRegs] at hagain
    exact ⟨_, hagain⟩

/-! ### Frames and independence -/

/-- What a completed command other than RESET leaves on its core: its edge, and its ports with the popped byte. -/
theorem exec_run {i : Instr} {s t : State} (hr : (Ports.ofInstr i).rst = false) (h : exec i s = .next t) :
    t = s.setFifo s.sel ((s.fifo s.sel).edge (paramsOf s.cfg s.sel) (Ports.ofInstr i))
      ((s.fifo s.sel).portOut (paramsOf s.cfg s.sel) (Ports.ofInstr i)
        ((s.fifo s.sel).poppedByte (paramsOf s.cfg s.sel) (Ports.ofInstr i))) := by
  obtain ⟨-, f, o, hc, rfl⟩ := exec_cases h
  obtain ⟨rfl, rfl⟩ := Fifo.cycle_run hr hc
  rfl

/-- Only RESET asserts rst. -/
theorem ofInstr_rst_eq_false {i : Instr} (h : i ≠ .reset) : (Ports.ofInstr i).rst = false := by
  cases i with
  | reset => exact absurd rfl h
  | _ => rfl

/-- Settles O25: a command is an update of the selected core alone. -/
theorem commandsTouchOnlyTheirCore : Obligations.CommandsTouchOnlyTheirCore := by
  intro i s t h
  obtain ⟨-, f, o, -, rfl⟩ := exec_cases h
  exact ⟨fun k hk => ⟨State.fifo_setFifo_other _ _ _ hk, State.out_setFifo_other _ _ _ hk⟩, by simp⟩

/-- Settles O26: the edge writes storage and wr only where the push fires, the push's slot only, and rd only where the
pop fires; RESET leaves storage. -/
theorem eachSideWritesOnlyItsOwn : Obligations.EachSideWritesOnlyItsOwn := by
  refine ⟨?_, fun p f f' hwr hview => ?_, fun p f f' hrd hview => ?_⟩
  · rintro i s t _ _ _ rfl rfl h rfl
    by_cases hi : i = .reset
    · subst hi
      obtain ⟨he, -⟩ := exec_cases h
      rw [exec_reset he] at h
      cases h
      exact ⟨fun k _ => by simp, fun hi => absurd rfl hi, fun hi => absurd rfl hi⟩
    · obtain ⟨he, -⟩ := exec_cases h
      obtain rfl := exec_run (ofInstr_rst_eq_false hi) h
      simp only [State.out_setFifo, State.fifo_setFifo, Fifo.portOut, Fifo.edge_storage, Fifo.edge_wr, Fifo.edge_rd]
      refine ⟨fun k hk => ?_, fun _ hpush => by simp [hpush], fun _ hpop => by simp [hpop]⟩
      split
      · next hpush =>
        rw [hpush] at hk
        refine Memory.read_write_other _ _ ?_
        rw [Fifo.wslot, slotOf_eq_mod_cap he]
        simpa using hk
      · rfl
  · rw [Fifo.fullO, Fifo.fullO, Fifo.cntP, Fifo.cntP, hwr, hview]
  · rw [Fifo.emptyO, Fifo.emptyO, Fifo.cntC, Fifo.cntC, hrd, hview]

/-- Two states that differ in the recorded outputs of the selected core only answer every command with one state. -/
theorem exec_setFifo_congr {s v w : State} {f : Fifo} {o o' : PortOut} {j : Instr}
    (hv : exec j (s.setFifo s.sel f o) = .next v) (hw : exec j (s.setFifo s.sel f o') = .next w) : v = w := by
  obtain ⟨-, g, q, hc, rfl⟩ := exec_cases hv
  obtain ⟨-, g', q', hc', rfl⟩ := exec_cases hw
  simp only [State.setFifo_sel, State.setFifo_cfg, State.fifo_setFifo, State.setFifo_setFifo] at hc hc' ⊢
  obtain ⟨rfl, rfl⟩ := Prod.mk.inj (Except.ok.inj (hc.symm.trans hc'))
  rfl

/-- Settles O29: where nothing fires the edge only shifts the views, which is a NOP's edge. -/
theorem deniedCommandLeavesWhatNopLeaves : Obligations.DeniedCommandLeavesWhatNopLeaves := by
  intro i s t u hi ht hu hpush hpop
  obtain rfl := exec_run (ofInstr_rst_eq_false hi) ht
  obtain rfl := exec_run rfl hu
  rw [State.out_setFifo] at hpush hpop
  rw [Fifo.edge_of_no_fire hpush hpop, Fifo.edge_of_no_fire (io := Ports.ofInstr .nop) rfl rfl, State.fifo_setFifo,
    State.fifo_setFifo]
  exact ⟨rfl, fun j v w hv hw => exec_setFifo_congr hv hw⟩

/-- On a full core the byte on push_data reaches neither a register nor an output (40 R97). -/
theorem Fifo.cycle_pushData_of_full {p : FifoParams} {f : Fifo} (h : f.fullO p = true) (io : Ports) (d : Byte) :
    f.cycle p { io with pushData := d } = f.cycle p io := by
  have hedge : f.edge p { io with pushData := d } = f.edge p io := by
    simp [Fifo.edge, Fifo.pushFire_of_full h, Fifo.popFire]
  rw [Fifo.cycle, hedge]
  rfl

/-- A command acts through its core's cycle alone. -/
theorem exec_congr {i j : Instr} {s : State}
    (h : (s.fifo s.sel).cycle (paramsOf s.cfg s.sel) (Ports.ofInstr i) =
      (s.fifo s.sel).cycle (paramsOf s.cfg s.sel) (Ports.ofInstr j)) : exec i s = exec j s := by
  rw [exec_eq_command, exec_eq_command, State.command, State.command, h]

/-- Settles O30: a full core's cycle is the same for every byte. -/
theorem pushDataIgnoredUnlessPushFires : Obligations.PushDataIgnoredUnlessPushFires := by
  intro s d d' hcnt
  have hignored := Fifo.cycle_pushData_of_full (Fifo.fullO_of_cntP hcnt)
  exact ⟨exec_congr (hignored (Ports.push d') d), exec_congr (hignored (Ports.pushpop d') d)⟩

/-- An edge register by register. -/
theorem Fifo.edge_eq_mk (p : FifoParams) (io : Ports) (f : Fifo) : f.edge p io =
    { storage := if f.pushFire p io then Memory.write f.storage (f.wslot p) io.pushData else f.storage
      wr := if f.pushFire p io then addIdx p.idxW f.wr 1 else f.wr
      rd := if f.popFire p io then addIdx p.idxW f.rd 1 else f.rd
      wsync := shiftPipe p f.wr f.wsync, rsync := shiftPipe p f.rd f.rsync } := by
  rw [← Fifo.edge_storage, ← Fifo.edge_wr, ← Fifo.edge_rd, ← Fifo.edge_wsync, ← Fifo.edge_rsync]

/-- Settles O31: each half's verdict, and what it writes, is the same function of the pre-edge core in both commands. -/
theorem pushpopHalvesAreIndependent : Obligations.PushpopHalvesAreIndependent := by
  intro s t u v d ht hu hv
  obtain rfl := exec_run rfl ht
  obtain rfl := exec_run rfl hu
  obtain rfl := exec_run rfl hv
  simp only [State.fifo_setFifo, State.out_setFifo]
  refine ⟨?_, ?_, rfl⟩
  · rw [Fifo.edge_eq_mk, Fifo.edge_eq_mk, Fifo.edge_eq_mk]
    rfl
  · rw [Fifo.edge_eq_mk, Fifo.edge_eq_mk, Fifo.edge_eq_mk]
    rfl

/-- A shift puts the index into stage 1 (40 R94). -/
theorem shiftPipe_zero {p : FifoParams} (a : Nat) (pipe : List Nat) (h : 0 < p.syncStages) :
    (shiftPipe p a pipe)[0]? = some a := by
  simp [shiftPipe, h]

/-- A shift puts stage n into stage n + 1 (40 R94). -/
theorem shiftPipe_succ {p : FifoParams} (a : Nat) (pipe : List Nat) {n : Nat} (h : n + 1 < p.syncStages) :
    (shiftPipe p a pipe)[n + 1]? = pipe[n]? := by
  simp [shiftPipe, h]

/-- Settles O32. -/
theorem pipelinesShiftEveryCycle : Obligations.PipelinesShiftEveryCycle := by
  rintro i s t _ _ _ rfl rfl ⟨-, -, -, -, hw, hr, -⟩ hi h rfl
  obtain rfl := exec_run (ofInstr_rst_eq_false hi) h
  rw [State.fifo_setFifo, Fifo.edge_wsync, Fifo.edge_rsync]
  exact ⟨fun h0 => ⟨shiftPipe_zero _ _ h0, shiftPipe_zero _ _ h0⟩,
    fun n hn => ⟨shiftPipe_succ _ _ hn, shiftPipe_succ _ _ hn⟩, shiftPipe_length hw, shiftPipe_length hr⟩

end Sys2Proof.Machine

/-! ## The queue over runs of commands (spec 40 section 6, 70 sections 2 and 3) -/

namespace Sys2Proof.Machine

open Sys2Proof

/-- A reset core meets the invariant: both indices and every stage are 0, and storage, which stays, is canonical. -/
theorem Fifo.inv_resetRegs {p : FifoParams} {f : Fifo} (hwf : Memory.wf f.storage)
    (hslots : ∀ x ∈ f.storage, x.1 < p.cap) : (f.resetRegs p).Inv p := by
  have hzero : ∀ x ∈ List.replicate p.syncStages 0, x < 2 ^ p.idxW := fun x hx =>
    List.eq_of_mem_replicate hx ▸ Nat.two_pow_pos _
  refine ⟨⟨hwf, hslots, Nat.two_pow_pos _, Nat.two_pow_pos _, ?_, ?_, hzero, hzero⟩, ⟨?_, ?_, ?_⟩, ?_⟩
  · exact List.length_replicate
  · exact List.length_replicate
  · exact List.pairwise_replicate (n := p.syncStages + 1).2 (.inr le_rfl)
  · intro x hx
    obtain rfl : x = 0 := List.eq_of_mem_replicate (n := p.syncStages + 1) hx
    exact (subIdx_self _ 0).trans_le (Nat.zero_le _)
  · exact List.pairwise_replicate (n := p.syncStages + 1).2 (.inr le_rfl)
  · intro j hj
    rw [Fifo.occupancy_resetRegs] at hj
    exact absurd hj (Nat.not_lt_zero j)

/-- A fresh core meets the invariant. -/
theorem Fifo.inv_fresh (p : FifoParams) : (Fifo.fresh p).Inv p :=
  Fifo.inv_resetRegs (f := Fifo.fresh p) Memory.wf_nil nofun

section Cycle

variable {p : FifoParams} {f : Fifo} (h : f.Inv p)

include h

/-- Reset keeps the invariant. -/
theorem Fifo.Inv.resetRegs : (f.resetRegs p).Inv p := by
  obtain ⟨⟨hwf, hslots, -⟩, -, -⟩ := h
  exact Fifo.inv_resetRegs hwf hslots

/-- From an invariant state a cycle with rst = 0 completes: an edge, and its ports with the popped byte (D30). -/
theorem Fifo.Inv.cycle_eq {io : Ports} (hr : io.rst = false) :
    f.cycle p io = .ok (f.edge p io, f.portOut p io (f.poppedByte p io)) := by
  obtain ⟨g, o, hc⟩ := h.cycle_ok io
  obtain ⟨rfl, rfl⟩ := Fifo.cycle_run hr hc
  exact hc

/-- Every cycle of an elaborated core keeps its invariant (70 R176). -/
theorem Fifo.Inv.cycle (he : elaborates p = true) {io : Ports} {g : Fifo} {o : PortOut}
    (hc : f.cycle p io = .ok (g, o)) : g.Inv p := by
  cases hr : io.rst with
  | true =>
    obtain ⟨-, rfl, -⟩ | ⟨hr', -⟩ | ⟨_, hr', -⟩ := Fifo.cycle_cases hc
    · exact h.resetRegs
    · simp [hr] at hr'
    · simp [hr] at hr'
  | false =>
    obtain ⟨rfl, -⟩ := Fifo.cycle_run hr hc
    exact h.edge he io

/-- The oldest byte of a core that holds one is the byte of its read slot. -/
theorem Fifo.Inv.head_contents (hpos : 0 < f.occupancy p) :
    ∃ b, Memory.read f.storage (f.rslot p) = some b ∧ (f.contents p).head? = some (some b) := by
  have hzero := h.liveByte_zero
  obtain ⟨-, -, hlive⟩ := h
  obtain ⟨b, hb⟩ := Option.isSome_iff_exists.1 (hlive 0 hpos)
  refine ⟨b, hzero ▸ hb, ?_⟩
  rw [List.head?_eq_getElem?, Fifo.contents_getElem?, if_pos hpos, hb]

/-- A firing pop gives the oldest byte (40 section 6). -/
theorem Fifo.Inv.poppedByte_of_fire {io : Ports} (hfire : f.popFire p io = true) :
    ∃ b, f.poppedByte p io = some b ∧ (f.contents p).head? = some (some b) := by
  obtain ⟨b, hb, hhead⟩ := h.head_contents (h.occupancy_pos_of_popFire hfire)
  exact ⟨b, by rw [Fifo.poppedByte, if_pos hfire, hb], hhead⟩

/-- The popped byte, then what the pop leaves, is what the core held. -/
theorem Fifo.Inv.poppedByte_append (io : Ports) :
    (f.poppedByte p io).toList.map some ++ (if f.popFire p io then (f.contents p).tail else f.contents p) =
      f.contents p := by
  cases hpop : f.popFire p io with
  | false => simp [Fifo.poppedByte, hpop]
  | true =>
    obtain ⟨b, hb, hhead⟩ := h.poppedByte_of_fire hpop
    rw [hb]
    exact List.cons_head?_tail hhead

/-- What a core held, then what an edge pushed, comes out in order: popped, or held after it. -/
theorem Fifo.Inv.contents_queue (he : elaborates p = true) (io : Ports) :
    f.contents p ++ (if f.pushFire p io then [io.pushData] else []).map some =
      (f.poppedByte p io).toList.map some ++ (f.edge p io).contents p := by
  rw [h.contents_edge he, ← List.append_assoc, h.poppedByte_append]
  cases f.pushFire p io <;> rfl

end Cycle

/-- A core without a firing pop shows no byte (40 R96). -/
theorem Fifo.poppedByte_of_no_fire {p : FifoParams} {io : Ports} {f : Fifo} (h : f.popFire p io = false) :
    f.poppedByte p io = none := by
  simp [Fifo.poppedByte, h]

/-- A command that requests a push drives its operand on push_data. -/
theorem operandOf_of_pushReq {i : Instr} (h : (Ports.ofInstr i).pushReq = true) :
    operandOf i = some (Ports.ofInstr i).pushData := by
  cases i with
  | push d => rfl
  | pushpop d => rfl
  | _ => cases h

/-- The pushed byte of a command's edge is its operand. -/
theorem operandOf_of_pushFire {p : FifoParams} {f : Fifo} {i : Instr}
    (h : f.pushFire p (Ports.ofInstr i) = true) : operandOf i = some (Ports.ofInstr i).pushData :=
  operandOf_of_pushReq (Fifo.pushFire_iff.1 h).1

/-- What a command's edge pushes is its operand. -/
theorem pushedBytes_eq_operand (p : FifoParams) (f : Fifo) (i : Instr) :
    (if f.pushFire p (Ports.ofInstr i) then [(Ports.ofInstr i).pushData] else []) =
      if f.pushFire p (Ports.ofInstr i) then (operandOf i).toList else [] := by
  split
  · next h => rw [operandOf_of_pushFire h]; rfl
  · rfl

section Command

variable {s : State} (he : elaborates (paramsOf s.cfg s.sel) = true)
  (h : (s.fifo s.sel).Inv (paramsOf s.cfg s.sel))

include he h

/-- From an invariant core every command but RESET completes with its edge. -/
theorem exec_of_inv {i : Instr} (hi : i ≠ .reset) :
    exec i s = .next (s.setFifo s.sel ((s.fifo s.sel).edge (paramsOf s.cfg s.sel) (Ports.ofInstr i))
      ((s.fifo s.sel).portOut (paramsOf s.cfg s.sel) (Ports.ofInstr i)
        ((s.fifo s.sel).poppedByte (paramsOf s.cfg s.sel) (Ports.ofInstr i)))) :=
  exec_of_cycle he (h.cycle_eq (ofInstr_rst_eq_false hi))

end Command

/-- Settles O35: RESET empties the core; every other command is an edge, which acts on the contents as on a queue. -/
theorem coreIsFirstInFirstOutQueue : Obligations.CoreIsFirstInFirstOutQueue := by
  rintro i s _ _ rfl rfl he h
  by_cases hi : i = .reset
  · subst hi
    refine ⟨_, _, exec_reset he, h.resetRegs, fun hpop => ?_, fun _ => rfl, fun _ => ?_, fun hi => absurd rfl hi⟩
    · cases hpop
    · exact Fifo.contents_eq_nil.2 (Fifo.occupancy_resetRegs ..)
  · refine ⟨_, _, exec_of_inv he h hi, h.edge he _, h.poppedByte_of_fire, Fifo.poppedByte_of_no_fire,
      fun hi' => absurd hi' hi, fun _ => ?_⟩
    rw [h.contents_edge he]
    cases hpush : (s.fifo s.sel).pushFire (paramsOf s.cfg s.sel) (Ports.ofInstr i) with
    | false => simp [Fifo.portOut, hpush]
    | true => simp [Fifo.portOut, hpush, operandOf_of_pushFire hpush]

/-- One command more in front of a run that completes. -/
theorem execTrace_cons {i : Instr} {is : List Instr} {s t u : State} {pushed popped : List Byte}
    (hi : exec i s = .next t) (his : execTrace is t = some (pushed, popped, u)) :
    execTrace (i :: is) s = some ((if (t.out s.sel).pushOk then (operandOf i).toList else []) ++ pushed,
      (t.out s.sel).popData.toList ++ popped, u) := by
  simp only [execTrace, hi, his]

/-- Over a run without RESET, what a core held and what was pushed come out in order: popped, or still held. -/
theorem execTrace_queue (is : List Instr) (hreset : .reset ∉ is) (s : State)
    (he : elaborates (paramsOf s.cfg s.sel) = true) (h : (s.fifo s.sel).Inv (paramsOf s.cfg s.sel)) :
    ∃ pushed popped t, execTrace is s = some (pushed, popped, t) ∧
      (s.fifo s.sel).contents (paramsOf s.cfg s.sel) ++ pushed.map some =
        popped.map some ++ (t.fifo s.sel).contents (paramsOf s.cfg s.sel) := by
  induction is generalizing s with
  | nil => exact ⟨[], [], s, rfl, by simp⟩
  | cons i is ih =>
    obtain ⟨hi, his⟩ := List.ne_and_not_mem_of_not_mem_cons hreset
    have hexec := exec_of_inv he h (Ne.symm hi)
    obtain ⟨pushed, popped, t, ht, hqueue⟩ := ih his (s.setFifo s.sel _ _)
      (by simpa using he) (by simpa using h.edge he (Ports.ofInstr i))
    refine ⟨_, _, t, execTrace_cons hexec ht, ?_⟩
    simp only [State.setFifo_sel, State.setFifo_cfg, State.fifo_setFifo] at hqueue
    have hedge := h.contents_queue he (Ports.ofInstr i)
    rw [pushedBytes_eq_operand] at hedge
    rw [State.out_setFifo, List.map_append, List.map_append, List.append_assoc, ← hqueue]
    simp only [Fifo.portOut, ← List.append_assoc]
    exact congrArg (· ++ pushed.map some) hedge

/-- Settles O36: the queue law of a run, from a core that holds nothing. -/
theorem popsReturnPushesInOrder : Obligations.PopsReturnPushesInOrder := by
  rintro is s _ rfl he h hnil hreset
  obtain ⟨pushed, popped, t, ht, hqueue⟩ := execTrace_queue is hreset s he h
  exact ⟨pushed, popped, t, ht, by simpa [hnil] using hqueue⟩

end Sys2Proof.Machine

/-! ### Fixed runs (spec 40 section 6, 70 section 3) -/

namespace Sys2Proof.Machine

open Sys2Proof

/-- Ahead of index 0 by at most C, the distance is the index. -/
theorem subIdx_zero_of_lt {w a : Nat} (h : a < 2 ^ w) : subIdx w a 0 = a := by
  rw [subIdx_of_lt h (Nat.two_pow_pos _), if_pos (Nat.zero_le a), Nat.sub_zero]

/-- The read side as RESET leaves it: rd and every stage of the producer's view at 0. -/
abbrev Fifo.ReadSideZero (p : FifoParams) (f : Fifo) : Prop := f.rd = 0 ∧ f.rsync = List.replicate p.syncStages 0

/-- With the read side at 0 the producer counts exactly its own index. -/
theorem Fifo.ReadSideZero.cntP_eq {p : FifoParams} {f : Fifo} (h : f.ReadSideZero p) (hwr : f.wr < 2 ^ p.idxW) :
    f.cntP p = f.wr := by
  obtain ⟨hrd, hrsync⟩ := h
  rw [Fifo.cntP, Fifo.rview, hrd, hrsync, viewOf_zero, subIdx_zero_of_lt hwr]

/-- A cycle without a firing pop keeps the read side at 0. -/
theorem Fifo.ReadSideZero.edge_push {p : FifoParams} {f : Fifo} (h : f.ReadSideZero p) (d : Byte) :
    (f.edge p (Ports.push d)).ReadSideZero p := by
  obtain ⟨hrd, hrsync⟩ := h
  refine ⟨by simpa using hrd, ?_⟩
  rw [Fifo.edge_rsync, hrd, hrsync, shiftPipe, ← List.replicate_succ, List.take_replicate,
    Nat.min_eq_left (Nat.le_succ _)]

/-- With the read side at 0, pushes that fit fire one after the other. -/
theorem execTrace_pushes (ds : List Byte) (s : State) (he : elaborates (paramsOf s.cfg s.sel) = true)
    (hz : (s.fifo s.sel).ReadSideZero (paramsOf s.cfg s.sel))
    (hfit : (s.fifo s.sel).wr + ds.length ≤ (paramsOf s.cfg s.sel).cap) :
    ∃ t, execTrace (ds.map .push) s = some (ds, [], t) ∧ t.cfg = s.cfg ∧ t.sel = s.sel ∧
      (t.fifo s.sel).ReadSideZero (paramsOf s.cfg s.sel) ∧ (t.fifo s.sel).wr = (s.fifo s.sel).wr + ds.length := by
  induction ds generalizing s with
  | nil => exact ⟨s, rfl, rfl, rfl, hz, rfl⟩
  | cons d ds ih =>
    have hcap := cap_lt_two_pow_idxW he
    rw [List.length_cons] at hfit
    have hfull : (s.fifo s.sel).fullO (paramsOf s.cfg s.sel) = false := by
      rw [Fifo.fullO, hz.cntP_eq (by omega), beq_eq_false_iff_ne]
      omega
    have hwr : ((s.fifo s.sel).edge (paramsOf s.cfg s.sel) (Ports.push d)).wr = (s.fifo s.sel).wr + 1 := by
      rw [Fifo.edge_wr, Fifo.pushFire_push, hfull, Bool.not_false, if_pos rfl, addIdx_one_of_lt (by omega),
        if_neg (by omega)]
    have hexec := exec_of_cycle (c := .push d) he (Fifo.cycle_push ..)
    obtain ⟨t, ht, hcfg, hsel, hzero, hlen⟩ := ih (s.setFifo s.sel _ _) (by simpa using he)
      (by simpa using hz.edge_push d) (by
        simp only [State.setFifo_sel, State.setFifo_cfg, State.fifo_setFifo, hwr]
        omega)
    simp only [State.setFifo_sel, State.setFifo_cfg, State.fifo_setFifo, hwr] at hcfg hsel hzero hlen
    refine ⟨t, ?_, hcfg, hsel, hzero, by rw [hlen, List.length_cons]; omega⟩
    rw [List.map_cons, execTrace_cons hexec ht, State.out_setFifo, Fifo.portOut_push_pushOk, hfull]
    rfl

/-- Settles O37: after RESET the producer counts wr, so C pushes fire and the next finds C. -/
theorem capacityBoundAfterReset : Obligations.CapacityBoundAfterReset := by
  rintro s _ ds d rfl he hwr hrd - hrsync hlen
  obtain ⟨t, ht, hcfg, hsel, hz, htwr⟩ := execTrace_pushes ds s he ⟨hrd, hrsync⟩ (by omega)
  have hcap := cap_lt_two_pow_idxW he
  rw [hwr, Nat.zero_add, hlen] at htwr
  have hfull : (t.fifo s.sel).fullO (paramsOf s.cfg s.sel) = true :=
    Fifo.fullO_of_cntP ((hz.cntP_eq (by omega)).trans htwr)
  have hocc : ∀ f : Fifo, f.wr = (paramsOf s.cfg s.sel).cap → f.rd = 0 →
      f.occupancy (paramsOf s.cfg s.sel) = (paramsOf s.cfg s.sel).cap := fun f hw hr => by
    rw [Fifo.occupancy, hr, hw, subIdx_zero_of_lt hcap]
  have hexec := exec_of_cycle (s := t) (c := .push d) (by rwa [hcfg, hsel]) (Fifo.cycle_push ..)
  rw [hcfg, hsel] at hexec
  refine ⟨t, _, ht, hocc _ htwr hz.1, hexec, ?_, ?_⟩
  · rw [State.out_setFifo, Fifo.portOut_push_pushRes, hfull, if_pos rfl]
  · rw [State.fifo_setFifo]
    exact hocc _ (by simp [hfull, htwr]) (by simp [hz.1])

end Sys2Proof.Machine

/-! ### A byte on its way to the consumer (spec 70 section 3) -/

namespace Sys2Proof.Machine

open Sys2Proof

/-- A core that holds the one byte d, whose new write index has reached n stages of the consumer's view. -/
structure Fifo.InFlight (p : FifoParams) (d : Byte) (n : Nat) (f : Fifo) : Prop where
  wr : f.wr = addIdx p.idxW f.rd 1
  byte : Memory.read f.storage (f.rslot p) = some d
  stages : ∀ j < p.syncStages, f.wsync[j]? = some (if j < n then f.wr else f.rd)

/-- A push into an empty core whose views lag nothing starts a byte on its way. -/
theorem Fifo.inFlight_of_push {p : FifoParams} {f : Fifo} (he : elaborates p = true) (hf : f.WellFormed p)
    (hsettled : f.Settled) (hwr : f.wr = f.rd) (d : Byte) : (f.edge p (Ports.push d)).InFlight p d 0 := by
  obtain ⟨hws, hrs⟩ := hsettled
  obtain ⟨-, -, -, -, hlen, -⟩ := hf
  have hview : f.rview p = f.rd := by
    obtain heq | hmem := List.mem_cons.1 (viewOf_mem p f.rd f.rsync)
    · exact heq
    · exact hrs _ hmem
  have hfull : f.fullO p = false := by
    rw [Fifo.fullO, Fifo.cntP, hview, hwr, subIdx_self, beq_eq_false_iff_ne]
    exact (cap_pos he).ne
  refine ⟨by simp [hfull, hwr], by simp [hfull, hwr, Fifo.rslot, Fifo.wslot], fun j hj => ?_⟩
  have hjlen : j < (shiftPipe p f.wr f.wsync).length := by rwa [shiftPipe_length hlen]
  have hstage : (shiftPipe p f.wr f.wsync)[j] = f.wr := by
    obtain heq | hmem := List.mem_cons.1 (mem_of_mem_shiftPipe (List.getElem_mem hjlen))
    · exact heq
    · exact hws _ hmem
  rw [Fifo.edge_wsync, List.getElem?_eq_getElem hjlen, hstage, if_neg (Nat.not_lt_zero j)]
  simp [hwr]

section InFlight

variable {p : FifoParams} {d : Byte} {n : Nat} {f : Fifo} (h : f.InFlight p d n)

include h

/-- A NOP takes the write index one stage on (40 R94). -/
theorem Fifo.InFlight.edge_nop : (f.edge p Ports.nop).InFlight p d (n + 1) := by
  have hregs : f.edge p Ports.nop = f.shiftViews p f := Fifo.edge_of_no_fire rfl rfl
  refine hregs ▸ ⟨h.wr, h.byte, fun j hj => ?_⟩
  rw [Fifo.shiftViews_wsync, Fifo.shiftViews_wr, Fifo.shiftViews_rd]
  cases j with
  | zero => rw [shiftPipe_zero _ _ hj, if_pos (Nat.succ_pos n)]
  | succ j => simp [shiftPipe_succ _ _ hj, h.stages j (by omega)]

/-- The consumer counts the byte exactly when its write index has passed all S stages (20 R47). -/
theorem Fifo.InFlight.cntC_eq (he : elaborates p = true) : f.cntC p = if p.syncStages ≤ n then 1 else 0 := by
  obtain ⟨-, hw⟩ := cap_eq_two_pow_of_elaborates he
  have hview : f.wview p = if p.syncStages ≤ n then f.wr else f.rd := by
    rw [Fifo.wview, viewOf]
    by_cases hS : p.syncStages = 0
    · rw [if_pos hS, if_pos (by omega)]
    · rw [if_neg hS, List.getD_eq_getElem?_getD, h.stages _ (by omega), Option.getD_some]
      exact if_congr (by omega) rfl rfl
  rw [Fifo.cntC, hview]
  split
  · rw [h.wr, subIdx_addIdx_one (by omega)]
  · exact subIdx_self ..

end InFlight

/-- NOPs in a row take the write index on, one stage each. -/
theorem execAll_nops_inFlight {d : Byte} (n m : Nat) (s : State) (he : elaborates (paramsOf s.cfg s.sel) = true)
    (h : (s.fifo s.sel).InFlight (paramsOf s.cfg s.sel) d m) :
    ∃ t, execAll (List.replicate n .nop) s = .next t ∧ t.cfg = s.cfg ∧ t.sel = s.sel ∧
      (t.fifo s.sel).InFlight (paramsOf s.cfg s.sel) d (m + n) := by
  induction n generalizing m s with
  | zero => exact ⟨s, rfl, rfl, rfl, h⟩
  | succ n ih =>
    have hexec := exec_of_no_pop (c := .nop) he rfl rfl
    obtain ⟨t, ht, hcfg, hsel, hflight⟩ := ih (m + 1) (s.setFifo s.sel _ _) (by simpa using he)
      (by simpa using h.edge_nop)
    simp only [State.setFifo_sel, State.setFifo_cfg] at hcfg hsel hflight
    refine ⟨t, ?_, hcfg, hsel, by rwa [Nat.add_right_comm, Nat.add_assoc] at hflight⟩
    rw [List.replicate_succ, execAll, hexec]
    exact ht

/-- Settles O38: n cycles after its push the byte's index has passed n stages, and a POP sees it when that is all S. -/
theorem pushedByteIsPoppableAfterLag : Obligations.PushedByteIsPoppableAfterLag := by
  rintro s _ _ d n rfl rfl he hf hsettled hwr
  have hpush := exec_of_cycle (c := .push d) he (Fifo.cycle_push ..)
  obtain ⟨t, ht, hcfg, hsel, hflight⟩ := execAll_nops_inFlight n 0 (s.setFifo s.sel _ _) (by simpa using he)
    (by simpa using Fifo.inFlight_of_push he hf hsettled hwr d)
  simp only [State.setFifo_sel, State.setFifo_cfg, Nat.zero_add] at hcfg hsel hflight
  have hpop := exec_of_cycle (s := t) (c := .pop) (by rwa [hcfg, hsel])
    (Fifo.cycle_of_written rfl fun _ => by rw [hcfg, hsel, hflight.byte]; rfl)
  rw [hcfg, hsel] at hpop
  have hfire : (t.fifo s.sel).popFire (paramsOf s.cfg s.sel) (Ports.ofInstr .pop) =
      decide ((paramsOf s.cfg s.sel).syncStages ≤ n) := by
    rw [Bool.eq_iff_iff, Fifo.popFire_iff, hflight.cntC_eq he, decide_eq_true_iff]
    simp [Ports.ofInstr, Ports.pop]
  refine ⟨t, _, ?_, hpop, ?_, ?_⟩
  · rw [execAll, hpush, andThen, ht]
  · rw [State.out_setFifo]
    simp [Fifo.portOut, Fifo.poppedByte, hfire, hflight.byte]
  · rw [State.out_setFifo]
    simp only [Fifo.portOut, popResult, hfire]
    simp [Ports.ofInstr, Ports.pop]

end Sys2Proof.Machine

/-! ## Status outputs (spec 20 section 2, 40 sections 2 and 4) -/

namespace Sys2Proof.Machine

open Sys2Proof

/-- For S ≥ 1 a view is the last stage (20 R47). -/
theorem getElem?_eq_viewOf {p : FifoParams} {pipe : List Nat} {n : Nat} (index : Nat) (hS : p.syncStages = n + 1)
    (hlen : pipe.length = p.syncStages) : pipe[n]? = some (viewOf p index pipe) := by
  have hn : n < pipe.length := by omega
  rw [viewOf, if_neg (by omega), hS, Nat.add_sub_cancel, List.getD_eq_getElem _ _ hn, List.getElem?_eq_getElem hn]

/-- Settles O14: every index and stage fits W bits, so each count is the difference modulo 2^W. -/
theorem countsAreDifferencesFromViews : Obligations.CountsAreDifferencesFromViews := by
  rintro p f ⟨-, -, hwr, hrd, hwlen, hrlen, hws, hrs⟩
  have hrstages : ∀ x ∈ f.rd :: f.rsync, x < 2 ^ p.idxW := List.forall_mem_cons.2 ⟨hrd, hrs⟩
  have hwstages : ∀ x ∈ f.wr :: f.wsync, x < 2 ^ p.idxW := List.forall_mem_cons.2 ⟨hwr, hws⟩
  have hrview : f.rview p < 2 ^ p.idxW := hrstages _ (viewOf_mem ..)
  have hwview : f.wview p < 2 ^ p.idxW := hwstages _ (viewOf_mem ..)
  exact ⟨fun h => ⟨if_pos h, if_pos h⟩, fun n hS => ⟨getElem?_eq_viewOf _ hS hrlen, getElem?_eq_viewOf _ hS hwlen⟩,
    subIdx_eq_mod hwr hrview, subIdx_eq_mod hwview hrd, subIdx_eq_mod hwr hrd⟩

/-- With S = 0 the consumer's count is the occupancy: its view is the write index itself (20 R47). -/
theorem Fifo.cntC_eq_occupancy {p : FifoParams} (h : p.syncStages = 0) (f : Fifo) : f.cntC p = f.occupancy p := by
  rw [Fifo.cntC, Fifo.wview, viewOf, if_pos h, Fifo.occupancy]

/-- The status outputs of a cycle, a reset cycle too, are those of the pre-edge core (40 R90 to R92). -/
theorem Fifo.cycle_status {p : FifoParams} {io : Ports} {f g : Fifo} {o : PortOut} (h : f.cycle p io = .ok (g, o)) :
    o.count = f.countO p ∧ o.full = f.fullO p ∧ o.empty = f.emptyO p := by
  obtain ⟨-, -, rfl⟩ | ⟨-, -, -, rfl⟩ | ⟨b, -, -, -, -, rfl⟩ := Fifo.cycle_cases h
  · exact ⟨rfl, rfl, rfl⟩  -- resetOut
  · exact ⟨rfl, rfl, rfl⟩  -- portOut, no byte popped
  · exact ⟨rfl, rfl, rfl⟩  -- portOut, a byte popped

/-- COUNT_W bits hold the occupancy of a core that meets the invariant (00 R10). -/
theorem Fifo.Inv.countO_eq {p : FifoParams} {f : Fifo} (h : f.Inv p) : f.countO p = f.occupancy p :=
  Nat.mod_eq_of_lt (h.occupancy_le_cap.trans_lt (cap_lt_two_pow_countW p))

/-- Settles O16: the status is the pre-edge core's, and for S = 0 both sides count the occupancy. -/
theorem statusOutputsShowPreEdgeState : Obligations.StatusOutputsShowPreEdgeState := by
  rintro i s t _ _ rfl rfl ht h
  obtain ⟨-, g, o, hc, rfl⟩ := exec_cases ht
  obtain ⟨hcount, hfull, hempty⟩ := Fifo.cycle_status hc
  rw [h.countO_eq] at hcount
  rw [State.out_setFifo, hcount, hfull, hempty, Fifo.fullO, Fifo.emptyO, beq_iff_eq, beq_iff_eq]
  refine ⟨rfl, Iff.rfl, Iff.rfl, fun hS => ?_⟩
  rw [Fifo.cntP_eq_occupancy hS, Fifo.cntC_eq_occupancy hS]
  exact ⟨Iff.rfl, Iff.rfl⟩

/-- Settles O18: with S = 0 both sides count the occupancy, which is at most 1, and 1 is C. -/
theorem singleSlotIsFullOrEmpty : Obligations.SingleSlotIsFullOrEmpty := by
  rintro s _ _ d rfl rfl he h hcap hS
  have hle := h.occupancy_le_cap
  have hlaw : (s.fifo s.sel).fullO (paramsOf s.cfg s.sel) = !(s.fifo s.sel).emptyO (paramsOf s.cfg s.sel) := by
    rw [Fifo.fullO, Fifo.emptyO, Fifo.cntP_eq_occupancy hS, Fifo.cntC_eq_occupancy hS, Bool.eq_iff_iff]
    simp only [beq_iff_eq, Bool.not_eq_true', beq_eq_false_iff_ne]
    omega
  refine ⟨hlaw, _, exec_of_inv (i := .pushpop d) he h nofun, ?_⟩
  rw [State.out_setFifo]
  show (!(s.fifo s.sel).fullO _) = !(!(s.fifo s.sel).emptyO _)
  rw [hlaw]

end Sys2Proof.Machine

/-! ## Elaboration (spec 40 section 1, 41, 42 section 1, 60 section 1) -/

namespace Sys2Proof.Machine

open Sys2Proof

/-- Settles O9: the check names the k of a power of two itself. -/
theorem elaboratesExactlyFittingPowersOfTwo : Obligations.ElaboratesExactlyFittingPowersOfTwo := by
  intro p
  refine ⟨fun h => ⟨p.capLog2, cap_eq_two_pow_of_elaborates h⟩, fun ⟨k, hcap, hw⟩ => ?_⟩
  have hlog : p.capLog2 = k := by rw [FifoParams.capLog2, hcap, Nat.log2_two_pow]
  have hne : p.cap ≠ 0 := by rw [hcap]; exact (Nat.two_pow_pos k).ne'
  have hand : p.cap &&& (p.cap - 1) = 0 := (Nat.and_sub_one_eq_zero_iff_isPowerOfTwo hne).2 ⟨k, hcap⟩
  simp [elaborates, hne, hand, hlog, hw]

/-- Settles O10: creation and every command look at the core's check first. -/
theorem invalidCapacityRefusesEveryCommand : Obligations.InvalidCapacityRefusesEveryCommand := by
  rintro _ he
  refine ⟨by simp [createFifo, he], ?_⟩
  rintro s i rfl
  rw [exec_eq_command, State.command, if_neg (by simp [he])]

/-- A configuration with no machine is refused at creation. -/
theorem create_of_refusal {c : Config} {r : Refusal} (h : configRefusal c = some r) (l : List Input) :
    create c l = .error r := by
  simp only [create, h]

/-- A configuration with no machine is refused at every step. -/
theorem step_of_refusal {s : State} {r : Refusal} (h : configRefusal s.cfg = some r) (hs : s.stim ≠ []) :
    step s = .refused r := by
  obtain ⟨i, rest, hs⟩ := List.exists_cons_of_ne_nil hs
  simp only [step, hs, runCycle, h]

/-- Settles O57: the refusal of each block's own check. -/
theorem invalidCapacityRefusesEveryStep : Obligations.InvalidCapacityRefusesEveryStep := by
  intro c hc
  have hrefused : configRefusal c = some .invalidCapacity := by
    rw [configRefusal]
    obtain ⟨hb, he⟩ | ⟨hb, he⟩ := hc
    · simp [hb, he]
    · cases hblock : c.block with
      | core => exact absurd hblock hb
      | channelPair => rcases he with he | he <;> simp [he]
      | bytePump => rcases he with he | he <;> simp [he]
  exact ⟨create_of_refusal hrefused, fun s hs => step_of_refusal (hs ▸ hrefused)⟩

/-- Settles O11: creation where both cores elaborate, and the pair's case of the refusal where one does not. -/
theorem pairIsRefusedWhenEitherCoreIs : Obligations.PairIsRefusedWhenEitherCoreIs := by
  intro c hb
  refine ⟨fun ⟨hi, ho⟩ l => ?_, fun h => invalidCapacityRefusesEveryStep c (.inr ⟨by rw [hb]; decide, h⟩)⟩
  have hnone : configRefusal c = none := by simp [configRefusal, hb, hi, ho]
  simp only [create, hnone]

/-- The check of XFORM is the bound of 42 R121: at most XFORM_MAX bytes for every state and byte. -/
theorem xformFits_iff (c : Config) :
    xformFits c.xformMax c.xform = true ↔ ∀ xs b, (applyXform c xs b).2.length ≤ c.xformMax := by
  cases hx : c.xform with
  | echo => simp [xformFits, applyXform, hx, Nat.succ_le_iff]
  | copies n => simp [xformFits, applyXform, hx]
  | app =>
    have hlen : ∀ xs b, (Config.appLen c.xformMax xs b).val ≤ c.xformMax := fun xs b =>
      Nat.le_of_lt_succ (Config.appLen c.xformMax xs b).isLt
    simpa [xformFits, applyXform, hx] using hlen

/-- A pump's cycle is never refused. -/
theorem pumpCycle_ne_refused (rst : Bool) (l : LineIn) (s : State) (r : Refusal) :
    pumpCycle rst l s ≠ .refused r := by
  unfold pumpCycle
  split
  · simp [pumpReset]
  · unfold pumpRun
    split
    · simp
    · split <;> simp

/-- A pump with an input left is refused exactly for its configuration. -/
theorem step_bytePump_refused_iff {s : State} (hb : s.cfg.block = .bytePump) (hs : s.stim ≠ []) (r : Refusal) :
    step s = .refused r ↔ configRefusal s.cfg = some r := by
  refine ⟨fun h => ?_, fun h => step_of_refusal h hs⟩
  obtain ⟨i, rest, hs⟩ := List.exists_cons_of_ne_nil hs
  simp only [step, hs, runCycle] at h
  cases hc : configRefusal s.cfg with
  | none =>
    simp only [hc, hb] at h
    exact (pumpCycle_ne_refused _ _ _ _ h).elim
  | some r' =>
    simp only [hc] at h
    cases h
    rfl

/-- The pump's checks beyond those of its cores fail exactly where S is not 0 or XFORM exceeds XFORM_MAX. -/
theorem pumpChecks_eq_false_iff (c : Config) : pumpChecks c = false ↔
    c.inbound.syncStages ≠ 0 ∨ c.outbound.syncStages ≠ 0 ∨
      ∃ xs b, c.xformMax < (applyXform c xs b).2.length := by
  have hxform : xformFits c.xformMax c.xform = false ↔ ∃ xs b, c.xformMax < (applyXform c xs b).2.length := by
    rw [← Bool.not_eq_true, xformFits_iff]
    push Not
    rfl
  rw [← hxform, pumpChecks, Bool.and_eq_false_iff, Bool.and_eq_false_iff, beq_eq_false_iff_ne, beq_eq_false_iff_ne,
    or_assoc]

/-- Settles O12: the refusals of a pump's configuration, its cores' checks before its own. -/
theorem pumpConfigurationChecks : Obligations.PumpConfigurationChecks := by
  intro s hb hs
  rw [step_bytePump_refused_iff hb hs, step_bytePump_refused_iff hb hs, ← pumpChecks_eq_false_iff, configRefusal, hb]
  cases hi : elaborates s.cfg.inbound with
  | false => simp
  | true =>
    cases ho : elaborates s.cfg.outbound with
    | false => simp
    | true => cases hp : pumpChecks s.cfg <;> simp

end Sys2Proof.Machine

/-! ## Steps of the three blocks (spec 00 section 6, 40 section 6, 41, 42) -/

namespace Sys2Proof.Machine

open Sys2Proof

/-- Settles O42: an elaborated bare core's cycle is its word's command. -/
theorem stepRunsTheDecodedCommand : Obligations.StepRunsTheDecodedCommand := by
  intro s i rest hs hb he
  have hc : configRefusal s.cfg = none := by simp [configRefusal, hb, he]
  simp only [step, hs, runCycle, hc, hb, coreCycle]

/-- What a bare core's cycle can do: one cycle of the core, and nothing else. -/
theorem coreCycle_cases {i : Input} {s t : State} (h : coreCycle i s = .next t) :
    elaborates s.cfg.core = true ∧
    ∃ f o, s.core.cycle s.cfg.core (Ports.ofInstr (decode i.cmd)) = .ok (f, o) ∧
      t = { s with core := f, coreOut := o, sel := .single } := by
  obtain ⟨he, -⟩ := exec_cases h
  obtain ⟨f, o, hc, rfl⟩ := exec_sel_next h
  exact ⟨he, f, o, hc, rfl⟩

/-- A bare core's cycle completes where its core's does. -/
theorem coreCycle_of_cycle {i : Input} {s : State} {f : Fifo} {o : PortOut} (he : elaborates s.cfg.core = true)
    (hc : s.core.cycle s.cfg.core (Ports.ofInstr (decode i.cmd)) = .ok (f, o)) :
    coreCycle i s = .next { s with core := f, coreOut := o, sel := .single } :=
  exec_of_cycle (s := { s with sel := .single }) he hc

/-- What a pair's cycle can do: one cycle of each core, and nothing else. -/
theorem pairCycle_cases {i : Input} {s t : State} (h : pairCycle i s = .next t) :
    elaborates s.cfg.inbound = true ∧ elaborates s.cfg.outbound = true ∧
    ∃ fi oi fo oo, s.inbound.cycle s.cfg.inbound (Ports.ofInstr (pairCommands i).1) = .ok (fi, oi) ∧
      s.outbound.cycle s.cfg.outbound (Ports.ofInstr (pairCommands i).2) = .ok (fo, oo) ∧
      t = { s with inbound := fi, inboundOut := oi, outbound := fo, outboundOut := oo, sel := .single } := by
  obtain ⟨u, hu, h⟩ := andThen_next h
  obtain ⟨v, hv, h⟩ := andThen_next h
  obtain ⟨hei, -⟩ := exec_cases hu
  obtain ⟨heo, -⟩ := exec_cases hv
  obtain ⟨fi, oi, hi, rfl⟩ := exec_sel_next hu
  obtain ⟨fo, oo, ho, rfl⟩ := exec_sel_next hv
  cases h
  exact ⟨hei, heo, fi, oi, fo, oo, hi, ho, rfl⟩

/-- A running pump's cycle completes where both cores' cycles do and out_q has a head in EMIT. -/
theorem pumpRun_of_cycles {l : LineIn} {s : State} {fi fo : Fifo} {oi oo : PortOut}
    (hq : ¬(s.pump.inSt = .emit ∧ s.pump.outQ = []))
    (hi : s.inbound.cycle s.cfg.inbound s.pump.inPorts = .ok (fi, oi))
    (ho : s.outbound.cycle s.cfg.outbound (s.pump.outPorts l (s.outbound.emptyO s.cfg.outbound)) = .ok (fo, oo)) :
    pumpRun l s = .next { s with
      inbound := fi, inboundOut := oi, outbound := fo, outboundOut := oo,
      pump := s.pump.edge s.cfg l (s.outbound.emptyO s.cfg.outbound) oi oo,
      lineOut := s.pump.lineOut l oo } := by
  rw [pumpRun, if_neg hq, hi, ho]

/-- A pump's cycle consumes no input and keeps the configuration and the selection. -/
theorem pumpCycle_frame {rst : Bool} {l : LineIn} {s t : State} (h : pumpCycle rst l s = .next t) :
    t.stim = s.stim ∧ t.cfg = s.cfg ∧ t.sel = s.sel := by
  cases rst with
  | true =>
    cases h
    exact ⟨rfl, rfl, rfl⟩
  | false =>
    obtain ⟨-, _, _, _, _, -, -, rfl⟩ := pumpRun_cases h
    exact ⟨rfl, rfl, rfl⟩

/-- Settles O43: no block's cycle touches the input to come or the configuration. -/
theorem stepConsumesExactlyOneInput : Obligations.StepConsumesExactlyOneInput := by
  refine ⟨fun s t h => ?_, fun s hs => by simp only [step, hs]⟩
  obtain ⟨i, rest, hs, -, ⟨-, h⟩ | ⟨-, h⟩ | ⟨-, h⟩⟩ := step_cases h
  · obtain ⟨-, _, _, -, rfl⟩ := coreCycle_cases h
    exact ⟨i, hs, rfl⟩
  · obtain ⟨-, -, _, _, _, _, -, -, rfl⟩ := pairCycle_cases h
    exact ⟨i, hs, rfl⟩
  · obtain ⟨hstim, hcfg, -⟩ := pumpCycle_frame h
    exact ⟨i, hstim ▸ hs, hcfg⟩

/-- Settles O46: a RESET in either stream is both cores' command. -/
theorem oneResetResetsBothCores : Obligations.OneResetResetsBothCores := by
  intro s i rest hs hb hreset hei heo
  have hstep := (step_channelPair hs hb hei heo).trans
    (pairCycle_of_cycles (s := { s with stim := rest }) (if_pos hreset) hei heo rfl rfl)
  exact ⟨_, hstep, rfl, rfl, rfl, rfl⟩

section Block

variable {s : State} {i : Input} {rest : List Input} (hs : s.stim = i :: rest) (hc : configRefusal s.cfg = none)

include hs hc

/-- An elaborated bare core's step is its cycle on the next input. -/
theorem step_core_cycle (hb : s.cfg.block = .core) : step s = coreCycle i { s with stim := rest } := by
  simp only [step, hs, runCycle, hc, hb]

/-- An elaborated pump's step, one with rst = 1 too, is its cycle on the next input. -/
theorem step_pump_cycle (hb : s.cfg.block = .bytePump) :
    step s = pumpCycle i.rst (decodeLine i.line) { s with stim := rest } := by
  simp only [step, hs, runCycle, hc, hb]

end Block

/-- The state with other recorded outputs. -/
def State.withOutputs (a b c : PortOut) (l : LineOut) (s : State) : State :=
  { s with coreOut := a, inboundOut := b, outboundOut := c, lineOut := l }

/-- Settles O44: each block's cycle is that of the same registers, whatever the recorded outputs. -/
theorem recordedOutputsInfluenceNothing : Obligations.RecordedOutputsInfluenceNothing := by
  intro s t a b c l h
  obtain ⟨i, rest, hs, hc, ⟨hb, h⟩ | ⟨hb, h⟩ | ⟨hb, h⟩⟩ := step_cases h
  · obtain ⟨he, f, o, hcycle, rfl⟩ := coreCycle_cases h
    have hstep := step_core_cycle (s := s.withOutputs a b c l) hs hc hb
    exact ⟨_, hstep.trans (coreCycle_of_cycle he hcycle), rfl, rfl, rfl, rfl, rfl, rfl, rfl⟩
  · obtain ⟨hei, heo, fi, oi, fo, oo, hi, ho, rfl⟩ := pairCycle_cases h
    have hstep := step_channelPair (s := s.withOutputs a b c l) hs hb hei heo
    exact ⟨_, hstep.trans (pairCycle_of_cycles rfl hei heo hi ho), rfl, rfl, rfl, rfl, rfl, rfl, rfl⟩
  · have hstep := step_pump_cycle (s := s.withOutputs a b c l) hs hc hb
    cases hr : i.rst with
    | true =>
      rw [hr] at h hstep
      cases h
      exact ⟨_, hstep, rfl, rfl, rfl, rfl, rfl, rfl, rfl⟩
    | false =>
      rw [hr] at h hstep
      obtain ⟨hq, fi, oi, fo, oo, hi, ho, rfl⟩ := pumpRun_cases h
      exact ⟨_, hstep.trans (pumpRun_of_cycles hq hi ho), rfl, rfl, rfl, rfl, rfl, rfl, rfl⟩

/-- Settles O55: every register of a pump reset cycle is written out in `pumpReset`. -/
theorem pumpResetCycle : Obligations.PumpResetCycle := by
  intro s i rest hs hc hb hr
  have hstep : step s = pumpReset { s with stim := rest } := by
    rw [step_pump_cycle hs hc hb, pumpCycle, hr, if_pos rfl]
  exact ⟨_, hstep, rfl, rfl, rfl, rfl, rfl, rfl, rfl, rfl, rfl, rfl, rfl, rfl, rfl, rfl, rfl, rfl, rfl⟩

/-- A reset pump and its two cores meet the pump's invariant, in every state that holds them. -/
theorem pumpInv_of_reset {s : State} (hpump : s.pump = Pump.fresh s.cfg)
    (hin : s.inbound.occupancy s.cfg.inbound = 0) (hout : s.outbound.occupancy s.cfg.outbound = 0) : PumpInv s := by
  simp [PumpInv, hpump, Pump.fresh, hin, hout]

/-- Settles O39: a fresh core of every parameter meets the invariant, and so does a fresh pump. -/
theorem freshMachineMeetsInvariant : Obligations.FreshMachineMeetsInvariant := by
  have hfresh : ∀ (c : Config) (l : List Input), configRefusal c = none → (State.fresh c l).Inv := fun c l hc =>
    ⟨hc, rfl, fun _ => Fifo.inv_fresh _, fun _ => ⟨Fifo.inv_fresh _, Fifo.inv_fresh _⟩,
      fun _ => pumpInv_of_reset rfl (subIdx_self ..) (subIdx_self ..)⟩
  exact ⟨hfresh _ _ (by decide), hfresh⟩

end Sys2Proof.Machine

/-! ## The running Byte Pump (spec 42 sections 1 to 5) -/

namespace Sys2Proof.Machine

open Sys2Proof

/-- The ports a running pump drives on outbound (42 R123). -/
def State.outPorts (l : LineIn) (s : State) : Ports := s.pump.outPorts l (s.outbound.emptyO s.cfg.outbound)

/-- What inbound answers in a running cycle. -/
def State.inAnswer (s : State) : PortOut :=
  s.inbound.portOut s.cfg.inbound s.pump.inPorts (s.inbound.poppedByte s.cfg.inbound s.pump.inPorts)

/-- What outbound answers in a running cycle. -/
def State.outAnswer (l : LineIn) (s : State) : PortOut :=
  s.outbound.portOut s.cfg.outbound (s.outPorts l) (s.outbound.poppedByte s.cfg.outbound (s.outPorts l))

/-- The state after a running pump's cycle that completes. -/
def State.pumpNext (l : LineIn) (rest : List Input) (s : State) : State :=
  { s with
    stim := rest, inbound := s.inbound.edge s.cfg.inbound s.pump.inPorts, inboundOut := s.inAnswer,
    outbound := s.outbound.edge s.cfg.outbound (s.outPorts l), outboundOut := s.outAnswer l,
    pump := s.pump.edge s.cfg l (s.outbound.emptyO s.cfg.outbound) s.inAnswer (s.outAnswer l),
    lineOut := s.pump.lineOut l (s.outAnswer l) }

section Next

variable (l : LineIn) (rest : List Input) (s : State)

@[simp] theorem State.pumpNext_cfg : (s.pumpNext l rest).cfg = s.cfg := rfl
@[simp] theorem State.pumpNext_inbound :
    (s.pumpNext l rest).inbound = s.inbound.edge s.cfg.inbound s.pump.inPorts := rfl
@[simp] theorem State.pumpNext_inboundOut : (s.pumpNext l rest).inboundOut = s.inAnswer := rfl
@[simp] theorem State.pumpNext_outbound :
    (s.pumpNext l rest).outbound = s.outbound.edge s.cfg.outbound (s.outPorts l) := rfl
@[simp] theorem State.pumpNext_outboundOut : (s.pumpNext l rest).outboundOut = s.outAnswer l := rfl
@[simp] theorem State.pumpNext_pump : (s.pumpNext l rest).pump =
    s.pump.edge s.cfg l (s.outbound.emptyO s.cfg.outbound) s.inAnswer (s.outAnswer l) := rfl
@[simp] theorem State.pumpNext_lineOut : (s.pumpNext l rest).lineOut = s.pump.lineOut l (s.outAnswer l) := rfl

@[simp] theorem State.inAnswer_pushOk : s.inAnswer.pushOk = s.inbound.pushFire s.cfg.inbound s.pump.inPorts := rfl
@[simp] theorem State.inAnswer_popData :
    s.inAnswer.popData = s.inbound.poppedByte s.cfg.inbound s.pump.inPorts := rfl
@[simp] theorem State.outAnswer_pushOk :
    (s.outAnswer l).pushOk = s.outbound.pushFire s.cfg.outbound (s.outPorts l) := rfl
@[simp] theorem State.outAnswer_popOk :
    (s.outAnswer l).popOk = s.outbound.popFire s.cfg.outbound (s.outPorts l) := rfl
@[simp] theorem State.outAnswer_popData :
    (s.outAnswer l).popData = s.outbound.poppedByte s.cfg.outbound (s.outPorts l) := rfl

/-- A push into inbound fires exactly in BYTE_AVAILABLE on an inbound that is not full (42 R123). -/
theorem State.inbound_pushFire : s.inbound.pushFire s.cfg.inbound s.pump.inPorts =
    (decide (s.pump.inSt = .byteAvailable) && !s.inbound.fullO s.cfg.inbound) := rfl

/-- A pop of inbound fires exactly in DELIVERED on an inbound that is not empty (42 R123). -/
theorem State.inbound_popFire : s.inbound.popFire s.cfg.inbound s.pump.inPorts =
    (decide (s.pump.inSt = .delivered) && !s.inbound.emptyO s.cfg.inbound) := rfl

/-- A push into outbound fires exactly in EMIT on an outbound that is not full (42 R123). -/
theorem State.outbound_pushFire : s.outbound.pushFire s.cfg.outbound (s.outPorts l) =
    (decide (s.pump.inSt = .emit) && !s.outbound.fullO s.cfg.outbound) := rfl

/-- A pop of outbound fires exactly when the enabled transmit interrupt fires on an outbound that is not empty (42
R122, R123): it is requested only there. -/
theorem State.outbound_popFire : s.outbound.popFire s.cfg.outbound (s.outPorts l) =
    (s.pump.txIrqEn && l.txReady && !s.outbound.emptyO s.cfg.outbound) := by
  show (s.pump.txIrqEn && l.txReady && !s.outbound.emptyO s.cfg.outbound && !s.outbound.emptyO s.cfg.outbound) = _
  rw [Bool.and_assoc, Bool.and_self]

/-- tx_irq_en after a cycle: set by a push into outbound, else kept but for firing on an empty outbound (42 R132). -/
theorem State.pumpNext_txIrqEn : (s.pumpNext l rest).pump.txIrqEn =
    (s.outbound.pushFire s.cfg.outbound (s.outPorts l) ||
      (s.pump.txIrqEn && !(l.txReady && s.outbound.emptyO s.cfg.outbound))) := by
  have hset : s.pump.setEn (s.outAnswer l) = s.outbound.pushFire s.cfg.outbound (s.outPorts l) := by
    rw [Pump.setEn, State.outAnswer_pushOk, State.outbound_pushFire, ← Bool.and_assoc, Bool.and_self]
  rw [State.pumpNext_pump, Pump.edge_txIrqEn, Pump.txIrqNext, hset, Pump.clearEn, Pump.txTrig]
  cases s.pump.txIrqEn <;> rfl

end Next

section Step

variable {s t : State} {i : Input} {rest : List Input} (hs : s.stim = i :: rest) (hb : s.cfg.block = .bytePump)
  (hr : i.rst = false)

include hs hb hr

/-- What a completed step of the pump without reset leaves. -/
theorem step_bytePump_eq (h : step s = .next t) : t = s.pumpNext (decodeLine i.line) rest := by
  obtain ⟨-, fi, oi, fo, oo, hi, ho, rfl⟩ := step_bytePump_cases hs hb hr h
  obtain ⟨rfl, rfl⟩ := Fifo.cycle_run rfl hi
  obtain ⟨rfl, rfl⟩ := Fifo.cycle_run rfl ho
  rfl

/-- From an invariant state the pump's step without reset completes. -/
theorem State.Inv.step_pumpNext (h : s.Inv) : step s = .next (s.pumpNext (decodeLine i.line) rest) := by
  obtain ⟨t, ht⟩ := h.step_bytePump_next hs hb hr
  rw [ht, step_bytePump_eq hs hb hr ht]

end Step

/-- Settles O52: the cases of tx_irq_en's next value. -/
theorem transmitEnableSetWinsOverClear : Obligations.TransmitEnableSetWinsOverClear := by
  intro s t i rest hs hb hr ht
  obtain rfl := step_bytePump_eq hs hb hr ht
  rw [State.pumpNext_txIrqEn, State.pumpNext_outboundOut, State.outAnswer_pushOk]
  refine ⟨fun hpush => ?_, fun hpush hen hready hempty => ?_, fun hpush hkeep => ?_, fun hen hpush => ?_⟩
  · rw [hpush, Bool.true_or]
  · rw [hpush, hen, hready, hempty]; rfl
  · rcases hkeep with h | h <;> simp [hpush, h]
  · rw [hpush, hen]; rfl

/-! ### The inbound side, state by state -/

section Sides

variable {q : Pump} (c : Config) (l : LineIn) (e : Bool) (oi oo : PortOut)

/-- The pump's registers after an edge in IDLE (42 R124). -/
theorem Pump.edge_idle (h : q.inSt = .idle) : q.edge c l e oi oo = { q with
    rxHold := if l.rxReady then l.rxData else q.rxHold, inSt := if l.rxReady then .byteAvailable else .idle,
    outSt := q.outStNext l e, txIrqEn := q.txIrqNext l e oo } := by
  simp only [Pump.edge, Pump.inboundSide, h, Pump.idleStep]
  split <;> rfl

/-- The pump's registers after an edge in DELIVERED that popped b (42 R126). -/
theorem Pump.edge_delivered (h : q.inSt = .delivered) {b : Byte} (hb : oi.popData = some b) (hq : q.outQ = []) :
    q.edge c l e oi oo = { q with
      xstate := (applyXform c q.xstate b).1, outQ := (applyXform c q.xstate b).2,
      inSt := if (applyXform c q.xstate b).2 = [] then .idle else .emit,
      outSt := q.outStNext l e, txIrqEn := q.txIrqNext l e oo } := by
  simp only [Pump.edge, Pump.inboundSide, h, Pump.deliveredStep, hb]
  split
  · next hnil => simp only [hnil, hq]
  · rfl

/-- The pump's registers after an edge in EMIT (42 R127). -/
theorem Pump.edge_emit (h : q.inSt = .emit) : q.edge c l e oi oo = { q with
    txDropCnt := if oo.pushOk then q.txDropCnt else satInc c.dropW q.txDropCnt, outQ := q.outQ.tail,
    inSt := if q.outQ.tail = [] then .idle else .emit,
    outSt := q.outStNext l e, txIrqEn := q.txIrqNext l e oo } := by
  simp only [Pump.edge, Pump.inboundSide, h, Pump.emitStep]

/-- rx_drop_cnt counts refused pushes in BYTE_AVAILABLE, and nothing else writes it (42 R133). -/
theorem Pump.inboundSide_rxDropCnt (q : Pump) : (q.inboundSide c l oi oo).rxDropCnt =
    if q.inSt = .byteAvailable ∧ oi.pushOk = false then satInc c.dropW q.rxDropCnt else q.rxDropCnt := by
  cases h : q.inSt with
  | idle => simp only [Pump.inboundSide, h, Pump.idleStep]; split <;> simp
  | byteAvailable => cases hok : oi.pushOk <;> simp [Pump.inboundSide, h, Pump.byteAvailableStep, hok]
  | delivered =>
    simp only [Pump.inboundSide, h, Pump.deliveredStep]
    split
    · split <;> simp
    · simp
  | emit => simp [Pump.inboundSide, h, Pump.emitStep]

/-- tx_drop_cnt counts refused pushes in EMIT, and nothing else writes it (42 R133). -/
theorem Pump.inboundSide_txDropCnt (q : Pump) : (q.inboundSide c l oi oo).txDropCnt =
    if q.inSt = .emit ∧ oo.pushOk = false then satInc c.dropW q.txDropCnt else q.txDropCnt := by
  cases h : q.inSt with
  | idle => simp only [Pump.inboundSide, h, Pump.idleStep]; split <;> simp
  | byteAvailable => simp [Pump.inboundSide, h, Pump.byteAvailableStep]
  | delivered =>
    simp only [Pump.inboundSide, h, Pump.deliveredStep]
    split
    · split <;> simp
    · simp
  | emit => cases hok : oo.pushOk <;> simp [Pump.inboundSide, h, Pump.emitStep, hok]

end Sides

theorem le_satInc (w x : Nat) : x ≤ satInc w x := by
  rw [satInc]; split <;> omega

theorem satInc_le (w x : Nat) : satInc w x ≤ x + 1 := by
  rw [satInc]; split <;> omega

theorem satInc_lt {w x : Nat} (h : x < 2 ^ w) : satInc w x < 2 ^ w := by
  rw [satInc]; split <;> omega

/-- Below saturation the counter counts exactly (42 R133). -/
theorem satInc_of_lt {w x : Nat} (h : satInc w x + 1 < 2 ^ w) : satInc w x = x + 1 := by
  rw [satInc] at h ⊢
  split at h
  · omega
  · next hne => rw [if_neg hne]

/-- A counter that counts or not in a cycle grows by at most 1 and keeps its width. -/
theorem ite_satInc_bounds {w x : Nat} (h : x < 2 ^ w) (P : Prop) [Decidable P] :
    (if P then satInc w x else x) < 2 ^ w ∧ x ≤ (if P then satInc w x else x) ∧
      (if P then satInc w x else x) ≤ x + 1 := by
  split
  · exact ⟨satInc_lt h, le_satInc .., satInc_le ..⟩
  · exact ⟨h, le_rfl, Nat.le_succ x⟩

/-- Settles O54: each counter has one writer, which saturates. -/
theorem dropCountersNeverWrap : Obligations.DropCountersNeverWrap := by
  intro s t i rest hs hb hrx htx ht
  cases hr : i.rst with
  | true =>
    obtain ⟨-, -, -, hc, -⟩ := step_cases ht
    obtain ⟨u, hu, -, -, -, -, -, -, -, -, hurx, hutx, -⟩ := pumpResetCycle s i rest hs hc hb hr
    cases hu.symm.trans ht
    rw [hurx, hutx]
    exact ⟨Nat.two_pow_pos _, Nat.two_pow_pos _, nofun, fun _ => ⟨rfl, rfl⟩⟩
  | false =>
    obtain rfl := step_bytePump_eq hs hb hr ht
    rw [State.pumpNext_pump, Pump.edge_rxDropCnt, Pump.edge_txDropCnt, Pump.inboundSide_rxDropCnt,
      Pump.inboundSide_txDropCnt]
    obtain ⟨hrxlt, hrxle, hrxge⟩ := ite_satInc_bounds hrx
      (s.pump.inSt = .byteAvailable ∧ s.inAnswer.pushOk = false)
    obtain ⟨htxlt, htxle, htxge⟩ := ite_satInc_bounds htx
      (s.pump.inSt = .emit ∧ (s.outAnswer (decodeLine i.line)).pushOk = false)
    exact ⟨hrxlt, htxlt, fun _ => ⟨hrxle, hrxge, htxle, htxge⟩, nofun⟩

theorem pushResult_ne_none {req fire : Bool} : pushResult req fire ≠ none ↔ req = true := by
  cases req <;> simp [pushResult]

theorem popResult_ne_none {req fire : Bool} : popResult req fire ≠ none ↔ req = true := by
  cases req <;> simp [popResult]

/-- Settles O56: each port is driven from the pump's state alone, and without its request a half does not fire. -/
theorem pumpAloneDrivesItsPorts : Obligations.PumpAloneDrivesItsPorts := by
  intro s t i rest hs hb hr ht
  obtain rfl := step_bytePump_eq hs hb hr ht
  have hpopreq : (s.outPorts (decodeLine i.line)).popReq = true ↔ s.pump.txIrqEn = true ∧
      (decodeLine i.line).txReady = true ∧ s.outbound.emptyO s.cfg.outbound = false := by
    simp [State.outPorts, Pump.outPorts, Pump.txTrig, and_assoc]
  refine ⟨pushResult_ne_none.trans decide_eq_true_iff, popResult_ne_none.trans decide_eq_true_iff,
    pushResult_ne_none.trans decide_eq_true_iff, popResult_ne_none.trans hpopreq, fun hst => ?_, fun hst => ?_,
    fun hst => ?_, fun hres => ?_, rfl, rfl⟩
  · simp [State.inbound_pushFire, hst]
  · simp [State.inbound_popFire, hst]
  · simp [State.outbound_pushFire, hst]
  · have hreq : (s.outPorts (decodeLine i.line)).popReq = false := by
      rw [← Bool.not_eq_true, ← popResult_ne_none, not_not]
      exact hres
    simp [Fifo.popFire, hreq]

end Sys2Proof.Machine

/-! ## The invariant of a step (spec 42 section 5, 70 section 2) -/

namespace Sys2Proof.Machine

open Sys2Proof

/-- A pump with a machine has passed its own checks (42 R121). -/
theorem pumpChecks_of_configRefusal {c : Config} (hb : c.block = .bytePump) (h : configRefusal c = none) :
    pumpChecks c = true := by
  simp only [configRefusal, hb] at h
  split at h
  · split at h
    · next hp => exact hp
    · cases h
  · cases h

/-- A pair with a machine has two elaborated cores (41 R110). -/
theorem configRefusal_channelPair {c : Config} (hb : c.block = .channelPair) (h : configRefusal c = none) :
    elaborates c.inbound = true ∧ elaborates c.outbound = true := by
  simpa [configRefusal, hb] using h

/-- With S = 0 there is no pipeline to shift, so an edge on which nothing fires changes nothing. -/
theorem Fifo.Inv.edge_eq_self {p : FifoParams} {io : Ports} {f : Fifo} (h : f.Inv p) (hS : p.syncStages = 0)
    (hpush : f.pushFire p io = false) (hpop : f.popFire p io = false) : f.edge p io = f := by
  obtain ⟨⟨-, -, -, -, hw, hr, -⟩, -, -⟩ := h
  rw [hS, List.length_eq_zero_iff] at hw hr
  rw [Fifo.edge_of_no_fire hpush hpop, Fifo.shiftViews, shiftPipe, shiftPipe, hS, List.take_zero, List.take_zero,
    ← hw]
  congr 1
  rw [hw, hr]

/-- The inbound side comes to DELIVERED from BYTE_AVAILABLE, and only from there (42 R124 to R127). -/
theorem Pump.inboundSide_inSt_delivered_iff (c : Config) (l : LineIn) (oi oo : PortOut) (q : Pump) :
    (q.inboundSide c l oi oo).inSt = .delivered ↔ q.inSt = .byteAvailable := by
  cases h : q.inSt with
  | idle => simp only [Pump.inboundSide, h, Pump.idleStep]; split <;> simp
  | byteAvailable => simp [Pump.inboundSide, h, Pump.byteAvailableStep]
  | delivered =>
    simp only [Pump.inboundSide, h, Pump.deliveredStep]
    split
    · split <;> simp
    · simp
  | emit => simp only [Pump.inboundSide, h, Pump.emitStep]; split <;> simp

/-- Outside EMIT nothing is pushed into outbound (42 R123). -/
theorem State.outbound_pushFire_of_ne {s : State} (l : LineIn) (hst : s.pump.inSt ≠ .emit) :
    s.outbound.pushFire s.cfg.outbound (s.outPorts l) = false := by
  rw [State.outbound_pushFire, decide_eq_false hst, Bool.false_and]

section Pump

variable {s : State} (h : s.Inv) (hb : s.cfg.block = .bytePump)

include h hb

theorem State.Inv.inbound_inv : s.inbound.Inv s.cfg.inbound := by
  obtain ⟨-, -, -, hcores, -⟩ := h
  exact (hcores (by rw [hb]; decide)).1

theorem State.Inv.outbound_inv : s.outbound.Inv s.cfg.outbound := by
  obtain ⟨-, -, -, hcores, -⟩ := h
  exact (hcores (by rw [hb]; decide)).2

theorem State.Inv.pumpInv : PumpInv s := by
  obtain ⟨-, -, -, -, hpump⟩ := h
  exact hpump hb

theorem State.Inv.pump_config : elaborates s.cfg.inbound = true ∧ elaborates s.cfg.outbound = true ∧
    s.cfg.inbound.syncStages = 0 ∧ s.cfg.outbound.syncStages = 0 := by
  obtain ⟨hc, -⟩ := h
  exact configRefusal_bytePump hb hc

/-- No call of XFORM returns more than XFORM_MAX bytes (42 R121). -/
theorem State.Inv.xform_length_le (xs : XState) (b : Byte) :
    (applyXform s.cfg xs b).2.length ≤ s.cfg.xformMax := by
  obtain ⟨hc, -⟩ := h
  have hp := pumpChecks_of_configRefusal hb hc
  simp only [pumpChecks, Bool.and_eq_true] at hp
  exact (xformFits_iff s.cfg).1 hp.2 xs b

/-! ### What fires in a cycle -/

/-- A push into inbound fires exactly in BYTE_AVAILABLE: it never fails (42 R136). -/
theorem State.Inv.inbound_pushFire :
    s.inbound.pushFire s.cfg.inbound s.pump.inPorts = decide (s.pump.inSt = .byteAvailable) := by
  rw [State.inbound_pushFire]
  by_cases hst : s.pump.inSt = .byteAvailable
  · obtain ⟨-, hfull⟩ := h.inbound_empty hb (by rw [hst]; decide)
    rw [hfull, Bool.not_false, Bool.and_true]
  · simp [hst]

/-- A pop of inbound fires exactly in DELIVERED: it always finds its byte (42 R136). -/
theorem State.Inv.inbound_popFire :
    s.inbound.popFire s.cfg.inbound s.pump.inPorts = decide (s.pump.inSt = .delivered) := by
  obtain ⟨-, -, hS, -⟩ := h.pump_config hb
  obtain ⟨-, -, hone, -⟩ := h.pumpInv hb
  rw [State.inbound_popFire, Fifo.emptyO, Fifo.cntC_eq_occupancy hS]
  by_cases hst : s.pump.inSt = .delivered
  · rw [hone hst]
    simp
  · simp [hst]

/-- A push into outbound fires exactly in EMIT with room in outbound. -/
theorem State.Inv.outbound_pushFire_iff (l : LineIn) : s.outbound.pushFire s.cfg.outbound (s.outPorts l) = true ↔
    s.pump.inSt = .emit ∧ s.outbound.occupancy s.cfg.outbound ≠ s.cfg.outbound.cap := by
  obtain ⟨-, -, -, hS⟩ := h.pump_config hb
  rw [State.outbound_pushFire, Fifo.fullO, Fifo.cntP_eq_occupancy hS]
  simp

/-- A pop of outbound fires exactly when the enabled transmit interrupt finds a byte in outbound. -/
theorem State.Inv.outbound_popFire_iff (l : LineIn) : s.outbound.popFire s.cfg.outbound (s.outPorts l) = true ↔
    s.pump.txIrqEn = true ∧ l.txReady = true ∧ s.outbound.occupancy s.cfg.outbound ≠ 0 := by
  obtain ⟨-, -, -, hS⟩ := h.pump_config hb
  rw [State.outbound_popFire, Fifo.emptyO, Fifo.cntC_eq_occupancy hS]
  simp [and_assoc]

/-- Outside BYTE_AVAILABLE and DELIVERED inbound stays as it is. -/
theorem State.Inv.inbound_edge_eq_self (hpush : s.pump.inSt ≠ .byteAvailable) (hpop : s.pump.inSt ≠ .delivered) :
    s.inbound.edge s.cfg.inbound s.pump.inPorts = s.inbound := by
  obtain ⟨-, -, hS, -⟩ := h.pump_config hb
  refine (h.inbound_inv hb).edge_eq_self hS ?_ ?_
  · rw [h.inbound_pushFire hb, decide_eq_false hpush]
  · rw [h.inbound_popFire hb, decide_eq_false hpop]

/-- In DELIVERED inbound holds one byte, which the cycle pops. -/
theorem State.Inv.delivered_byte (hst : s.pump.inSt = .delivered) : ∃ b,
    s.inbound.contents s.cfg.inbound = [some b] ∧ s.inAnswer.popData = some b := by
  obtain ⟨-, -, hone, -⟩ := h.pumpInv hb
  have hlen := Fifo.contents_length s.cfg.inbound s.inbound
  rw [hone hst] at hlen
  obtain ⟨x, hx⟩ := List.length_eq_one_iff.1 hlen
  obtain ⟨b, hpop, hhead⟩ := (h.inbound_inv hb).poppedByte_of_fire (io := s.pump.inPorts)
    (by rw [h.inbound_popFire hb, decide_eq_true hst])
  rw [hx, List.head?_cons, Option.some.injEq] at hhead
  exact ⟨b, by rw [hx, hhead], hpop⟩

/-- out_q is empty outside EMIT (10 R32). -/
theorem State.Inv.outQ_eq_nil (hst : s.pump.inSt ≠ .emit) : s.pump.outQ = [] := by
  obtain ⟨hq, -⟩ := h.pumpInv hb
  exact not_not.1 fun hne => hst (hq.1 hne)

/-! ### The invariant of the pump, part by part -/

/-- out_q stays non-empty exactly in EMIT, and within XFORM_MAX (10 R32). -/
theorem State.Inv.pumpNext_outQ (l : LineIn) (rest : List Input) :
    ((s.pumpNext l rest).pump.outQ ≠ [] ↔ (s.pumpNext l rest).pump.inSt = .emit) ∧
      (s.pumpNext l rest).pump.outQ.length ≤ s.cfg.xformMax := by
  obtain ⟨-, hlen, -⟩ := h.pumpInv hb
  rw [State.pumpNext_pump]
  cases hst : s.pump.inSt with
  | idle =>
    have hq := h.outQ_eq_nil hb (by rw [hst]; decide)
    rw [Pump.edge_idle _ _ _ _ _ hst, hq]
    cases l.rxReady <;> simp
  | byteAvailable =>
    have hq := h.outQ_eq_nil hb (by rw [hst]; decide)
    rw [Pump.edge_byteAvailable hst, hq]
    simp
  | delivered =>
    obtain ⟨b, -, hpop⟩ := h.delivered_byte hb hst
    rw [Pump.edge_delivered _ _ _ _ _ hst hpop (h.outQ_eq_nil hb (by rw [hst]; decide))]
    refine ⟨?_, h.xform_length_le hb _ _⟩
    split <;> simp [*]
  | emit =>
    rw [Pump.edge_emit _ _ _ _ _ hst]
    refine ⟨?_, ?_⟩
    · split <;> simp [*]
    · simp only [List.length_tail]
      omega

/-- Inbound holds a byte exactly in DELIVERED after the cycle too (42 R136). -/
theorem State.Inv.pumpNext_inbound_occupancy (l : LineIn) (rest : List Input) :
    (s.pumpNext l rest).inbound.occupancy s.cfg.inbound =
      if (s.pumpNext l rest).pump.inSt = .delivered then 1 else 0 := by
  obtain ⟨he, -⟩ := h.pump_config hb
  obtain ⟨-, -, hone, hzero, -⟩ := h.pumpInv hb
  have hocc := (h.inbound_inv hb).occupancy_edge he s.pump.inPorts
  rw [h.inbound_pushFire hb, h.inbound_popFire hb] at hocc
  simp only [State.pumpNext_inbound, State.pumpNext_pump, Pump.edge_inSt, Pump.inboundSide_inSt_delivered_iff]
  by_cases hpop : s.pump.inSt = .delivered
  · simpa [hpop, hone hpop] using hocc
  · by_cases hpush : s.pump.inSt = .byteAvailable
    · simpa [hpush, hzero hpop] using hocc
    · simpa [hpop, hpush, hzero hpop] using hocc

/-- Inbound never drops a byte (42 R136). -/
theorem State.Inv.pumpNext_rxDropCnt (l : LineIn) (rest : List Input) :
    (s.pumpNext l rest).pump.rxDropCnt = s.pump.rxDropCnt := by
  rw [State.pumpNext_pump, Pump.edge_rxDropCnt, Pump.inboundSide_rxDropCnt, State.inAnswer_pushOk,
    h.inbound_pushFire hb]
  exact if_neg (by simp)

/-- With a byte in outbound after the cycle the transmit interrupt is enabled: it was pushed now, or it stood there
(42 R137). -/
theorem State.Inv.pumpNext_txIrqEn_of_occupied (l : LineIn) (rest : List Input)
    (hne : (s.pumpNext l rest).outbound.occupancy s.cfg.outbound ≠ 0) :
    (s.pumpNext l rest).pump.txIrqEn = true := by
  obtain ⟨-, he, -, hS⟩ := h.pump_config hb
  obtain ⟨-, -, -, -, -, hen, -⟩ := h.pumpInv hb
  rw [State.pumpNext_outbound] at hne
  rw [State.pumpNext_txIrqEn]
  cases hpush : s.outbound.pushFire s.cfg.outbound (s.outPorts l) with
  | true => rfl
  | false =>
    have hocc := (h.outbound_inv hb).occupancy_edge he (s.outPorts l)
    rw [hpush, Bool.toNat_false] at hocc
    have hocc' : s.outbound.occupancy s.cfg.outbound ≠ 0 := by omega
    have hempty : s.outbound.emptyO s.cfg.outbound = false := by
      rwa [Fifo.emptyO, Fifo.cntC_eq_occupancy hS, beq_eq_false_iff_ne]
    simp [hen hocc', hempty]

/-- The pump's running cycle keeps the pump's invariant. -/
theorem State.Inv.pumpInv_pumpNext (l : LineIn) (rest : List Input) : PumpInv (s.pumpNext l rest) := by
  obtain ⟨hq, hlen⟩ := h.pumpNext_outQ hb l rest
  have hocc := h.pumpNext_inbound_occupancy hb l rest
  obtain ⟨-, -, -, -, hrx, -, htx⟩ := h.pumpInv hb
  refine ⟨hq, hlen, fun hst => hocc.trans (if_pos hst), fun hst => hocc.trans (if_neg hst),
    (h.pumpNext_rxDropCnt hb l rest).trans hrx, h.pumpNext_txIrqEn_of_occupied hb l rest, ?_⟩
  rw [State.pumpNext_pump, Pump.edge_txDropCnt, Pump.inboundSide_txDropCnt]
  exact (ite_satInc_bounds htx _).1

/-- The pump's running cycle keeps the invariant. -/
theorem State.Inv.pumpNext (l : LineIn) (rest : List Input) : (s.pumpNext l rest).Inv := by
  obtain ⟨hei, heo, -⟩ := h.pump_config hb
  have hin := (h.inbound_inv hb).edge hei s.pump.inPorts
  have hout := (h.outbound_inv hb).edge heo (s.outPorts l)
  have hpump := h.pumpInv_pumpNext hb l rest
  obtain ⟨hc, hsel, hcore, -⟩ := h
  exact ⟨hc, hsel, hcore, fun _ => ⟨hin, hout⟩, fun _ => hpump⟩

end Pump

/-- Settles O40: each block's step is cycles of its cores, which keep theirs, and the pump's edge or reset. -/
theorem everyStepKeepsInvariant : Obligations.EveryStepKeepsInvariant := by
  intro s t h ht
  obtain ⟨i, rest, hs, hc, ⟨hb, hcyc⟩ | ⟨hb, hcyc⟩ | ⟨hb, hcyc⟩⟩ := step_cases ht
  · obtain ⟨he, f, o, hf, rfl⟩ := coreCycle_cases hcyc
    obtain ⟨-, -, hcore, hpair, hpump⟩ := h
    exact ⟨hc, rfl, fun hb => (hcore hb).cycle he hf, hpair, hpump⟩
  · obtain ⟨hei, heo, fi, oi, fo, oo, hi, ho, rfl⟩ := pairCycle_cases hcyc
    obtain ⟨-, -, hcore, hpair, -⟩ := h
    refine ⟨hc, rfl, hcore, fun hne => ?_, fun hpump => absurd (hb.symm.trans hpump) (by decide)⟩
    obtain ⟨hin, hout⟩ := hpair hne
    exact ⟨hin.cycle hei hi, hout.cycle heo ho⟩
  · cases hr : i.rst with
    | true =>
      rw [hr] at hcyc
      have hin := (h.inbound_inv hb).resetRegs
      have hout := (h.outbound_inv hb).resetRegs
      obtain ⟨-, hsel, hcore, -⟩ := h
      cases hcyc
      exact ⟨hc, hsel, hcore, fun _ => ⟨hin, hout⟩,
        fun _ => pumpInv_of_reset rfl (Fifo.occupancy_resetRegs ..) (Fifo.occupancy_resetRegs ..)⟩
    | false =>
      obtain rfl := step_bytePump_eq hs hb hr ht
      exact h.pumpNext hb _ _

/-- From an invariant state with an input left every block steps. -/
theorem State.Inv.step_next {s : State} (h : s.Inv) (hs : s.stim ≠ []) : ∃ t, step s = .next t := by
  obtain ⟨i, rest, hs⟩ := List.exists_cons_of_ne_nil hs
  obtain ⟨hc, -, hcore, hpair, -⟩ := id h
  cases hb : s.cfg.block with
  | core =>
    have he : elaborates s.cfg.core = true := by simpa [configRefusal, hb] using hc
    obtain ⟨f, o, hf⟩ := (hcore hb).cycle_ok (Ports.ofInstr (decode i.cmd))
    rw [step_core_cycle hs hc hb]
    exact ⟨_, coreCycle_of_cycle (s := { s with stim := rest }) he hf⟩
  | channelPair =>
    obtain ⟨hei, heo⟩ := configRefusal_channelPair hb hc
    obtain ⟨hin, hout⟩ := hpair (by rw [hb]; decide)
    obtain ⟨fi, oi, hi⟩ := hin.cycle_ok (Ports.ofInstr (pairCommands i).1)
    obtain ⟨fo, oo, ho⟩ := hout.cycle_ok (Ports.ofInstr (pairCommands i).2)
    rw [step_channelPair hs hb hei heo]
    exact ⟨_, pairCycle_of_cycles (s := { s with stim := rest }) rfl hei heo hi ho⟩
  | bytePump =>
    cases hr : i.rst with
    | true =>
      rw [step_pump_cycle hs hc hb, hr]
      exact ⟨_, rfl⟩
    | false => exact h.step_bytePump_next hs hb hr

/-- Settles O41: with no input a step is refused, with one it completes. -/
theorem invariantStatesNeverFault : Obligations.InvariantStatesNeverFault := by
  intro s h
  refine ⟨fun r hfault => ?_, h.step_next⟩
  by_cases hs : s.stim = []
  · rw [stepConsumesExactlyOneInput.2 s hs] at hfault
    cases hfault
  · obtain ⟨t, ht⟩ := h.step_next hs
    cases ht.symm.trans hfault

end Sys2Proof.Machine

/-! ## The pump's states and its drainer (spec 42 sections 2, 3, 5) -/

namespace Sys2Proof.Machine

open Sys2Proof

/-- Without a push into outbound its storage and wr stay. -/
theorem State.outbound_edge_of_no_push {s : State} {l : LineIn}
    (hpush : s.outbound.pushFire s.cfg.outbound (s.outPorts l) = false) :
    (s.outbound.edge s.cfg.outbound (s.outPorts l)).storage = s.outbound.storage ∧
      (s.outbound.edge s.cfg.outbound (s.outPorts l)).wr = s.outbound.wr := by
  simp [hpush]

/-- Settles O47: in IDLE neither half of inbound fires, and outbound takes no push. -/
theorem pumpIdleTakesReadyByte : Obligations.PumpIdleTakesReadyByte := by
  intro s i rest h hs hb hr hst
  obtain ⟨hstorage, hwr⟩ := State.outbound_edge_of_no_push
    (State.outbound_pushFire_of_ne (decodeLine i.line) (by rw [hst]; decide : s.pump.inSt ≠ .emit))
  refine ⟨_, h.step_pumpNext hs hb hr, ?_, hstorage, hwr, ?_⟩
  · exact h.inbound_edge_eq_self hb (by rw [hst]; decide) (by rw [hst]; decide)
  · rw [State.pumpNext_pump, Pump.edge_idle _ _ _ _ _ hst]
    refine ⟨rfl, rfl, rfl, rfl, fun hready => ?_, fun hready => ?_⟩ <;>
      simp [Pump.lineOut, Pump.rxTake, hst, hready]

/-- Settles O49: in DELIVERED inbound pops its one byte, which goes through XFORM, and outbound takes no push. -/
theorem pumpDeliversByteToTransform : Obligations.PumpDeliversByteToTransform := by
  intro s i rest h hs hb hr hst
  obtain ⟨hei, -⟩ := h.pump_config hb
  obtain ⟨b, hcontents, hpop⟩ := h.delivered_byte hb hst
  have hnil := h.outQ_eq_nil hb (by rw [hst]; decide)
  have hpushIn := h.inbound_pushFire hb
  have hpopIn := h.inbound_popFire hb
  rw [hst] at hpushIn hpopIn
  obtain ⟨hstorage, hwr⟩ := State.outbound_edge_of_no_push
    (State.outbound_pushFire_of_ne (decodeLine i.line) (by rw [hst]; decide : s.pump.inSt ≠ .emit))
  have hempty : (s.inbound.edge s.cfg.inbound s.pump.inPorts).contents s.cfg.inbound = [] := by
    rw [(h.inbound_inv hb).contents_edge hei, hpushIn, hpopIn, hcontents]
    rfl
  refine ⟨_, b, h.step_pumpNext hs hb hr, hcontents, hpop, hempty, ?_, ?_⟩
  · simp [Pump.lineOut, Pump.rxTake, hst]
  · rw [State.pumpNext_pump, Pump.edge_delivered _ _ _ _ _ hst hpop hnil]
    refine ⟨rfl, rfl, fun hq => if_pos hq, fun hq => if_neg hq, rfl, rfl, rfl, ?_, ?_, hstorage, hwr⟩
    · simp [hpushIn]
    · simp [hpushIn]

/-- Settles O50: in EMIT outbound takes the push of out_q's head where it has room, and counts a drop where not. -/
theorem pumpEmitsOneBytePerCycle : Obligations.PumpEmitsOneBytePerCycle := by
  intro s i rest d ds h hs hb hr hst hq
  obtain ⟨-, heo, -⟩ := h.pump_config hb
  have hdata : (s.outPorts (decodeLine i.line)).pushData = d := by simp [State.outPorts, Pump.outPorts, hq]
  have hreq : (s.outPorts (decodeLine i.line)).pushReq = true := decide_eq_true hst
  have hpush := h.outbound_pushFire_iff hb (decodeLine i.line)
  refine ⟨_, h.step_pumpNext hs hb hr, ?_⟩
  have hregs : (s.pumpNext (decodeLine i.line) rest).pump = _ := Pump.edge_emit _ _ _ _ _ hst
  have hirq := s.pumpNext_txIrqEn (decodeLine i.line) rest
  rw [hregs] at hirq ⊢
  rw [hq, List.tail_cons] at hirq ⊢
  refine ⟨rfl, fun hnil => if_pos hnil, fun hne => if_neg hne, rfl, rfl, rfl,
    h.inbound_edge_eq_self hb (by rw [hst]; decide) (by rw [hst]; decide), fun hroom => ?_, fun hfull => ?_⟩
  · have hfire := hpush.2 ⟨hst, hroom⟩
    refine ⟨?_, ?_, ?_, ?_⟩
    · simp [State.outAnswer, Fifo.portOut, pushResult, hreq, hfire]
    · simp [hfire]
    · rw [hirq, hfire, Bool.true_or]
    · rw [State.pumpNext_outbound, (h.outbound_inv hb).contents_edge heo, if_pos hfire, hdata]
      exact List.getLast?_concat
  · have hfire : s.outbound.pushFire s.cfg.outbound (s.outPorts (decodeLine i.line)) = false := by
      rw [← Bool.not_eq_true, hpush]
      exact fun hroom => hroom.2 hfull
    obtain ⟨hstorage, hwr⟩ := State.outbound_edge_of_no_push hfire
    refine ⟨Fifo.portOut_pushRes_full hreq hfire _, hstorage, hwr, ?_⟩
    simp [hfire, satInc]

/-- Settles O51: the drainer's pop fires exactly there, and gives the oldest byte. -/
theorem pumpDrainsOldestByte : Obligations.PumpDrainsOldestByte := by
  intro s i rest h hs hb hr
  have hwrite : (s.pumpNext (decodeLine i.line) rest).lineOut.txWrite =
      s.outbound.popFire s.cfg.outbound (s.outPorts (decodeLine i.line)) := rfl
  refine ⟨_, h.step_pumpNext hs hb hr, h.outbound_popFire_iff hb _, ?_, fun hfire => ?_, fun hfire => ?_⟩
  · rw [hwrite, State.outbound_popFire, State.pumpNext_pump, Pump.edge_outSt, Pump.outStNext, Pump.txTrig]
    split <;> simp [*]
  · rw [hwrite] at hfire
    obtain ⟨b, hpop, hhead⟩ := (h.outbound_inv hb).poppedByte_of_fire hfire
    refine ⟨?_, ?_⟩
    · simp [Pump.lineOut, hpop, hhead]
    · simp [hfire, addIdx_eq_mod]
  · rw [hwrite] at hfire
    refine ⟨?_, ?_⟩
    · simp [Pump.lineOut, Fifo.poppedByte_of_no_fire hfire]
    · simp [hfire]

/-- Settles O53: the invariant keeps the interrupt enabled over a byte, and the drainer writes it. -/
theorem noByteIsStranded : Obligations.NoByteIsStranded := by
  intro s i rest h hb hcount
  rw [(h.outbound_inv hb).countO_eq] at hcount
  obtain ⟨-, -, -, -, -, hen, -⟩ := h.pumpInv hb
  refine ⟨hen hcount.ne', fun hs hr hready => ?_⟩
  obtain ⟨t, ht, hwrite, -, hbyte, -⟩ := pumpDrainsOldestByte s i rest h hs hb hr
  have htx := hwrite.2 ⟨hen hcount.ne', hready, hcount.ne'⟩
  exact ⟨t, ht, htx, (hbyte htx).1⟩

/-! ## Bytes through the pump (spec 42 sections 2 to 5) -/

/-- How the bytes inside a pump moved from s to t: those taken from the line went on to XFORM in order or are still
pending, and XFORM's bytes went out in order or are still on their way, but for the drops that tx_drop_cnt counts. -/
structure BytesMoved (s t : State) (taken done out : List Byte) : Prop where
  cfg : t.cfg = s.cfg
  pending : s.pending ++ taken.map some = done.map some ++ t.pending
  xstate : t.pump.xstate = (xformAll s.cfg s.pump.xstate done).1
  outgoing : (out.map some ++ t.outgoing).Sublist (s.outgoing ++ (xformAll s.cfg s.pump.xstate done).2.map some)
  drops_le : s.pump.txDropCnt ≤ t.pump.txDropCnt
  drops : t.pump.txDropCnt + 1 < 2 ^ s.cfg.dropW →
    (out.map some ++ t.outgoing).length + t.pump.txDropCnt =
      (s.outgoing ++ (xformAll s.cfg s.pump.xstate done).2.map some).length + s.pump.txDropCnt

theorem BytesMoved.refl (s : State) : BytesMoved s s [] [] [] where
  cfg := rfl
  pending := by simp
  xstate := rfl
  outgoing := by simp [xformAll]
  drops_le := le_rfl
  drops := fun _ => by simp [xformAll]

theorem BytesMoved.trans {s t u : State} {taken done out taken' done' out' : List Byte}
    (h : BytesMoved s t taken done out) (h' : BytesMoved t u taken' done' out') :
    BytesMoved s u (taken ++ taken') (done ++ done') (out ++ out') where
  cfg := h'.cfg.trans h.cfg
  pending := by
    rw [List.map_append, List.map_append, ← List.append_assoc, h.pending, List.append_assoc, h'.pending,
      List.append_assoc]
  xstate := by rw [h'.xstate, h.cfg, h.xstate, xformAll_append]
  outgoing := by
    have hsecond := h'.outgoing
    rw [h.cfg, h.xstate] at hsecond
    rw [xformAll_append, List.map_append, List.map_append, List.append_assoc, ← List.append_assoc s.outgoing]
    refine (hsecond.append_left (out.map some)).trans ?_
    rw [← List.append_assoc]
    exact h.outgoing.append_right _
  drops_le := h.drops_le.trans h'.drops_le
  drops := fun hlt => by
    have hmono := h'.drops_le
    have hfirst := h.drops (by omega)
    have hsecond := h'.drops (by rwa [h.cfg])
    rw [h.cfg, h.xstate] at hsecond
    rw [xformAll_append]
    simp only [List.map_append, List.length_append, List.length_map] at hfirst hsecond ⊢
    omega

section Pending

variable {s : State}

theorem State.pending_idle (h : s.pump.inSt = .idle) : s.pending = [] := by simp only [State.pending, h]

theorem State.pending_byteAvailable (h : s.pump.inSt = .byteAvailable) : s.pending = [some s.pump.rxHold] := by
  simp only [State.pending, h]

theorem State.pending_delivered (h : s.pump.inSt = .delivered) : s.pending = s.inbound.contents s.cfg.inbound := by
  simp only [State.pending, h]

theorem State.pending_emit (h : s.pump.inSt = .emit) : s.pending = [] := by simp only [State.pending, h]

end Pending

/-- The bytes a cycle takes from the line. -/
def State.takenBytes (l : LineIn) (s : State) : List Byte := if s.pump.rxTake l then [l.rxData] else []

/-- The bytes a cycle writes to the line. -/
def State.writtenBytes (l : LineIn) (s : State) : List Byte :=
  (s.outbound.poppedByte s.cfg.outbound (s.outPorts l)).toList

section Cycle

variable {s : State} (h : s.Inv) (hb : s.cfg.block = .bytePump) (l : LineIn) (rest : List Input)

include h hb

/-- Where nothing is pushed into outbound, what was in it goes out in order or stays. -/
theorem State.Inv.written_of_no_push (hst : s.pump.inSt ≠ .emit) :
    (s.writtenBytes l).map some ++ (s.pumpNext l rest).outbound.contents s.cfg.outbound =
      s.outbound.contents s.cfg.outbound := by
  obtain ⟨-, heo, -⟩ := h.pump_config hb
  have hqueue := (h.outbound_inv hb).contents_queue heo (s.outPorts l)
  rw [State.outbound_pushFire_of_ne l hst, if_neg Bool.false_ne_true, List.map_nil, List.append_nil] at hqueue
  exact hqueue.symm

/-- Outside EMIT the bytes on their way to the line stay, but for what XFORM adds to out_q. -/
theorem State.Inv.bytesMoved_of_no_emit {done : List Byte} (hst : s.pump.inSt ≠ .emit)
    (hpending : s.pending ++ (s.takenBytes l).map some = done.map some ++ (s.pumpNext l rest).pending)
    (hxstate : (s.pumpNext l rest).pump.xstate = (xformAll s.cfg s.pump.xstate done).1)
    (hq : (s.pumpNext l rest).pump.outQ = s.pump.outQ ++ (xformAll s.cfg s.pump.xstate done).2)
    (hdrop : (s.pumpNext l rest).pump.txDropCnt = s.pump.txDropCnt) :
    BytesMoved s (s.pumpNext l rest) (s.takenBytes l) done (s.writtenBytes l) := by
  have hgoing : (s.writtenBytes l).map some ++ (s.pumpNext l rest).outgoing =
      s.outgoing ++ (xformAll s.cfg s.pump.xstate done).2.map some := by
    rw [State.outgoing, State.pumpNext_cfg, ← List.append_assoc, h.written_of_no_push hb l rest hst, hq,
      List.map_append, ← List.append_assoc, State.outgoing]
  exact ⟨rfl, hpending, hxstate, hgoing ▸ List.Sublist.refl _, hdrop.ge, fun _ => by rw [hgoing, hdrop]⟩

/-- In IDLE a ready byte becomes pending. -/
theorem State.Inv.bytesMoved_idle (hst : s.pump.inSt = .idle) :
    BytesMoved s (s.pumpNext l rest) (s.takenBytes l) [] (s.writtenBytes l) := by
  have hregs : (s.pumpNext l rest).pump = _ := Pump.edge_idle _ _ _ _ _ hst
  refine h.bytesMoved_of_no_emit hb l rest (by rw [hst]; decide) ?_ (by rw [hregs]; rfl)
    (by rw [hregs]; exact (List.append_nil _).symm) (by rw [hregs])
  have htake : s.pump.rxTake l = l.rxReady := by simp [Pump.rxTake, hst]
  rw [State.takenBytes, htake, State.pending_idle hst]
  cases hready : l.rxReady with
  | false => rw [State.pending_idle (by rw [hregs, hready]; rfl)]; rfl
  | true => rw [State.pending_byteAvailable (by rw [hregs, hready]; rfl), hregs, hready]; rfl

/-- In BYTE_AVAILABLE the pending byte goes on to inbound. -/
theorem State.Inv.bytesMoved_byteAvailable (hst : s.pump.inSt = .byteAvailable) :
    BytesMoved s (s.pumpNext l rest) (s.takenBytes l) [] (s.writtenBytes l) := by
  obtain ⟨hei, -⟩ := h.pump_config hb
  obtain ⟨hocc, hfull⟩ := h.inbound_empty hb (by rw [hst]; decide)
  have hregs : (s.pumpNext l rest).pump = _ := Pump.edge_byteAvailable hst ..
  refine h.bytesMoved_of_no_emit hb l rest (by rw [hst]; decide) ?_ (by rw [hregs]; rfl)
    (by rw [hregs]; exact (List.append_nil _).symm) (by rw [hregs])
  have hin : (s.pumpNext l rest).inbound.contents s.cfg.inbound = [some s.pump.rxHold] := by
    rw [State.pumpNext_inbound, Pump.inPorts_byteAvailable hst]
    exact (h.inbound_inv hb).contents_push hei hocc hfull _
  rw [State.takenBytes, Pump.rxTake_byteAvailable hst, State.pending_byteAvailable hst,
    State.pending_delivered (by rw [hregs]), State.pumpNext_cfg, hin]
  rfl

/-- In DELIVERED the pending byte goes through XFORM, whose bytes join those on their way. -/
theorem State.Inv.bytesMoved_delivered (hst : s.pump.inSt = .delivered) :
    ∃ b, BytesMoved s (s.pumpNext l rest) (s.takenBytes l) [b] (s.writtenBytes l) := by
  obtain ⟨b, hcontents, hpop⟩ := h.delivered_byte hb hst
  have hnil := h.outQ_eq_nil hb (by rw [hst]; decide)
  have hregs : (s.pumpNext l rest).pump = _ := Pump.edge_delivered _ _ _ _ _ hst hpop hnil
  refine ⟨b, h.bytesMoved_of_no_emit hb l rest (by rw [hst]; decide) ?_ (by rw [hregs]; rfl) ?_ (by rw [hregs])⟩
  · have htake : s.pump.rxTake l = false := by simp [Pump.rxTake, hst]
    have hnext : (s.pumpNext l rest).pending = [] := by
      by_cases hq : (applyXform s.cfg s.pump.xstate b).2 = []
      · exact State.pending_idle (by rw [hregs]; exact if_pos hq)
      · exact State.pending_emit (by rw [hregs]; exact if_neg hq)
    rw [State.takenBytes, htake, State.pending_delivered hst, hcontents, hnext]
    rfl
  · rw [hregs, hnil]
    exact (List.append_nil _).symm

/-- In EMIT the head of out_q goes on to outbound, or is dropped and counted. -/
theorem State.Inv.bytesMoved_emit (hst : s.pump.inSt = .emit) :
    BytesMoved s (s.pumpNext l rest) (s.takenBytes l) [] (s.writtenBytes l) := by
  obtain ⟨-, heo, -⟩ := h.pump_config hb
  obtain ⟨hq, -⟩ := h.pumpInv hb
  obtain ⟨d, ds, hds⟩ := List.exists_cons_of_ne_nil (hq.2 hst)
  have hdata : (s.outPorts l).pushData = d := by simp [State.outPorts, Pump.outPorts, hds]
  have hqueue := (h.outbound_inv hb).contents_queue heo (s.outPorts l)
  have hregs : (s.pumpNext l rest).pump = _ := Pump.edge_emit _ _ _ _ _ hst
  have hgoing : (s.writtenBytes l).map some ++ (s.pumpNext l rest).outgoing =
      s.outbound.contents s.cfg.outbound ++
        ((if s.outbound.pushFire s.cfg.outbound (s.outPorts l) then [d] else []) ++ ds).map some := by
    rw [hdata] at hqueue
    rw [State.outgoing, ← List.append_assoc, List.map_append, ← List.append_assoc, hqueue, hregs, hds]
    rfl
  have hbefore : s.outgoing = s.outbound.contents s.cfg.outbound ++ (d :: ds).map some := by
    rw [State.outgoing, hds]
  have htake : s.pump.rxTake l = false := by simp [Pump.rxTake, hst]
  have hcount : (s.pumpNext l rest).pump.txDropCnt =
      if s.outbound.pushFire s.cfg.outbound (s.outPorts l) then s.pump.txDropCnt
      else satInc s.cfg.dropW s.pump.txDropCnt := by rw [hregs]; rfl
  refine ⟨rfl, ?_, by rw [hregs]; rfl, ?_, ?_, fun hlt => ?_⟩
  · have hnext : (s.pumpNext l rest).pending = [] := by
      by_cases hlast : s.pump.outQ.tail = []
      · exact State.pending_idle (by rw [hregs]; exact if_pos hlast)
      · exact State.pending_emit (by rw [hregs]; exact if_neg hlast)
    rw [State.takenBytes, htake, State.pending_emit hst, hnext]
    rfl
  · rw [hgoing, hbefore, xformAll, List.map_nil, List.append_nil]
    refine (List.Sublist.map _ ?_).append_left _
    split
    · exact List.Sublist.refl _
    · exact List.sublist_cons_self ..
  · rw [hcount]
    split
    · exact le_rfl
    · exact le_satInc ..
  · rw [hgoing, hbefore, xformAll]
    rw [hcount] at hlt ⊢
    by_cases hfire : s.outbound.pushFire s.cfg.outbound (s.outPorts l) = true
    · simp [hfire]
    · rw [if_neg hfire] at hlt
      simp [hfire, satInc_of_lt hlt]
      omega

/-- Every running cycle moves the bytes on. -/
theorem State.Inv.bytesMoved_pumpNext :
    ∃ done, BytesMoved s (s.pumpNext l rest) (s.takenBytes l) done (s.writtenBytes l) := by
  cases hst : s.pump.inSt with
  | idle => exact ⟨_, h.bytesMoved_idle hb l rest hst⟩
  | byteAvailable => exact ⟨_, h.bytesMoved_byteAvailable hb l rest hst⟩
  | delivered =>
    obtain ⟨b, hmoved⟩ := h.bytesMoved_delivered hb l rest hst
    exact ⟨_, hmoved⟩
  | emit => exact ⟨_, h.bytesMoved_emit hb l rest hst⟩

end Cycle

end Sys2Proof.Machine

/-! ### The line's side of a run (spec 42 section 4) -/

namespace Sys2Proof.Machine

open Sys2Proof

/-- What the line saw between two of its cycles: the bytes taken are its own, each once and in order, and it accepted
those written. -/
structure LineMoved (bytes : List Byte) (c c' : LineCycle) (taken out : List Byte) : Prop where
  le : c.taken ≤ c'.taken
  taken : taken = (bytes.drop c.taken).take (c'.taken - c.taken)
  accepted : c'.accepted = c.accepted ++ out

theorem LineMoved.refl (bytes : List Byte) (c : LineCycle) : LineMoved bytes c c [] [] where
  le := le_rfl
  taken := by simp
  accepted := by simp

theorem LineMoved.trans {bytes : List Byte} {c c' c'' : LineCycle} {taken out taken' out' : List Byte}
    (h : LineMoved bytes c c' taken out) (h' : LineMoved bytes c' c'' taken' out') :
    LineMoved bytes c c'' (taken ++ taken') (out ++ out') where
  le := h.le.trans h'.le
  taken := by
    have hle := h.le
    have hle' := h'.le
    rw [h.taken, h'.taken, show c''.taken - c.taken = (c'.taken - c.taken) + (c''.taken - c'.taken) by omega,
      List.take_add, List.drop_drop, show c.taken + (c'.taken - c.taken) = c'.taken by omega]
  accepted := by rw [h'.accepted, h.accepted, List.append_assoc]

/-- The byte a cycle takes is the line's oldest not yet taken, and the line goes on by exactly that (42 R134 (a) to
(c)). -/
theorem takenBytes_of_duties {s : State} {bytes : List Byte} {c c' : LineCycle}
    (htake : c.answer.rxTake = s.pump.rxTake c.drive) (hvalid : lineValid bytes c) (hadvances : lineAdvances c c')
    (hholds : lineHolds c c') :
    c.taken ≤ c'.taken ∧ s.takenBytes c.drive = (bytes.drop c.taken).take (c'.taken - c.taken) := by
  rw [lineAdvances, htake] at hadvances
  rw [lineHolds, htake] at hholds
  rw [State.takenBytes]
  cases hrx : s.pump.rxTake c.drive with
  | true =>
    have hready : c.drive.rxReady = true := by
      simp only [Pump.rxTake, Bool.and_eq_true] at hrx
      exact hrx.2
    rw [hadvances hrx, Nat.add_sub_cancel_left, List.take_one, List.head?_drop, hvalid hready]
    exact ⟨Nat.le_succ _, rfl⟩
  | false =>
    obtain ⟨hsame, -⟩ := hholds hrx
    simp [hsame]

/-- A byte is written only to a line that is ready (42 R122), so the line accepts what is written (42 R134 (d)). -/
theorem State.Inv.accepted_of_duties {s : State} (h : s.Inv) (hb : s.cfg.block = .bytePump) {c c' : LineCycle}
    (hanswer : c.answer = s.pump.lineOut c.drive (s.outAnswer c.drive)) (haccepts : lineAccepts c c') :
    c'.accepted = c.accepted ++ s.writtenBytes c.drive := by
  have hwrite : c.answer.txWrite = s.outbound.popFire s.cfg.outbound (s.outPorts c.drive) := hanswer ▸ rfl
  have hdata : c.answer.txData = (s.outbound.poppedByte s.cfg.outbound (s.outPorts c.drive)).getD 0x00 :=
    hanswer ▸ rfl
  rw [lineAccepts, hwrite, hdata] at haccepts
  rw [haccepts, State.writtenBytes]
  by_cases hfire : s.outbound.popFire s.cfg.outbound (s.outPorts c.drive) = true
  · obtain ⟨b, hpop, -⟩ := (h.outbound_inv hb).poppedByte_of_fire hfire
    obtain ⟨-, hready, -⟩ := (h.outbound_popFire_iff hb c.drive).1 hfire
    simp [hready, hfire, hpop]
  · rw [Bool.not_eq_true] at hfire
    simp [hfire, Fifo.poppedByte_of_no_fire hfire]

/-- Over a run without reset the pump moves the line's bytes, and the line sees them move. -/
theorem lineRun_bytesMoved {bytes : List Byte} {last : LineCycle} {t : State} (cs : List LineCycle) (s : State)
    (h : s.Inv) (hb : s.cfg.block = .bytePump) (hr : ∀ i ∈ s.stim.take cs.length, i.rst = false)
    (hrun : lineRun cs s = some t) (hduties : LineDuties bytes (cs ++ [last])) :
    ∃ taken done out, BytesMoved s t taken done out ∧ LineMoved bytes (cs.headD last) last taken out := by
  induction cs generalizing s with
  | nil =>
    obtain rfl := Option.some.inj hrun
    exact ⟨[], [], [], BytesMoved.refl s, LineMoved.refl bytes last⟩
  | cons c cs ih =>
    obtain ⟨i, rest, u, hs, hu, hdrive, hanswer, hrun⟩ := lineRun_cons_cases hrun
    rw [hs, List.length_cons, List.take_succ_cons, List.forall_mem_cons] at hr
    obtain ⟨hr, hrest⟩ := hr
    obtain rfl := step_bytePump_eq hs hb hr hu
    have hhead : cs ++ [last] = cs.headD last :: (cs ++ [last]).tail := by cases cs <;> rfl
    rw [List.cons_append, hhead, LineDuties_cons_cons, ← hhead] at hduties
    obtain ⟨⟨hvalid, -⟩, ⟨hadvances, hholds, haccepts⟩, hduties⟩ := hduties
    rw [hdrive] at hanswer hrun
    obtain ⟨taken, done, out, hmoved, hline⟩ := ih _ (h.pumpNext hb c.drive rest) hb hrest hrun hduties
    obtain ⟨b, hfirst⟩ := h.bytesMoved_pumpNext hb c.drive rest
    obtain ⟨hle, htaken⟩ := takenBytes_of_duties (s := s) (by rw [← hanswer]; rfl) hvalid hadvances hholds
    have hseen : LineMoved bytes c (cs.headD last) (s.takenBytes c.drive) (s.writtenBytes c.drive) :=
      ⟨hle, htaken, h.accepted_of_duties hb hanswer.symm haccepts⟩
    exact ⟨_, _, _, hfirst.trans hmoved, hseen.trans hline⟩

/-- Settles O58: the bytes the pump moved are those the line saw move. -/
theorem lineBytesComeBackTransformed : Obligations.LineBytesComeBackTransformed := by
  intro bytes cs last s t h hb hr hrun hduties
  obtain ⟨taken, done, out, hmoved, hline⟩ := lineRun_bytesMoved cs s h hb hr hrun hduties
  exact ⟨hline.le, done, out, hline.taken ▸ hmoved.pending, hmoved.xstate, hline.accepted, hmoved.outgoing,
    hmoved.drops⟩

end Sys2Proof.Machine

/-! ## Words and text (spec 30) -/

namespace Sys2Proof.Machine

open Sys2Proof

/-- A command word is its three command bits and its operand field (30 R62). -/
theorem word_eq_append (w : CmdWord) : ∃ (h : BitVec 3) (d : Byte), w = h ++ d :=
  ⟨_, _, (BitVec.extractLsb'_append_extractLsb' (w := 3) (len := 8)).symm⟩

/-- The number of a word: its command bits above its operand. -/
theorem toNat_append_byte {n : Nat} (h : BitVec n) (d : Byte) : (h ++ d).toNat = h.toNat * 2 ^ 8 + d.toNat := by
  rw [BitVec.toNat_append, ← Nat.shiftLeft_add_eq_or_of_lt d.isLt, Nat.shiftLeft_eq]

section Fields

variable (h : BitVec 3) (d : Byte)

theorem rstBit_append : CmdWord.rstBit (h ++ d) = h.getLsbD 2 := BitVec.getLsbD_append
theorem popqBit_append : CmdWord.popqBit (h ++ d) = h.getLsbD 1 := BitVec.getLsbD_append
theorem pushqBit_append : CmdWord.pushqBit (h ++ d) = h.getLsbD 0 := BitVec.getLsbD_append
theorem dField_append : CmdWord.dField (h ++ d) = d := BitVec.extractLsb'_append_eq_right

/-- The decoder on a word's two parts: the number of the command bits selects the row (30 R64). -/
theorem decode_append : decode (h ++ d) =
    if 4 ≤ h.toNat then .reset else if 3 ≤ h.toNat then .pushpop d else if 2 ≤ h.toNat then .pop
    else if 1 ≤ h.toNat then .push d else .nop := by
  have hrst : h.getLsbD 2 = decide (4 ≤ h.toNat) := by revert h; decide
  have hpopq : h.getLsbD 1 = decide (2 ≤ h.toNat % 4) := by revert h; decide
  have hpushq : h.getLsbD 0 = decide (1 ≤ h.toNat % 2) := by revert h; decide
  have hlt : h.toNat < 8 := h.isLt
  rw [decode, rstBit_append, popqBit_append, pushqBit_append, dField_append, hrst, hpopq, hpushq]
  generalize h.toNat = n at hlt
  interval_cases n <;> rfl

end Fields

/-- Settles O3: the encoder puts the row's command bits before the operand. -/
theorem decodeOfEncodeIsTheCommand : Obligations.DecodeOfEncodeIsTheCommand := by
  intro i _
  cases i with
  | nop => exact decode_append 0b000#3 0#8
  | push d => exact decode_append 0b001#3 d
  | pop => exact decode_append 0b010#3 0#8
  | pushpop d => exact decode_append 0b011#3 d
  | reset => exact decode_append 0b100#3 0#8

/-- A mask acts on a word's two parts. -/
theorem word_and_append (h m : BitVec 3) (d n : Byte) :
    ((h ++ d : CmdWord) &&& (m ++ n : CmdWord)) = (h &&& m) ++ (d &&& n) := BitVec.and_append

/-- No row of the table looks at the operand field: the low byte of its mask is 0. -/
theorem hits_append (h : BitVec 3) (d : Byte) : ∀ r ∈ opcodeTable, r.hits (h ++ d) = r.hits (h ++ 0#8) := by
  intro r hr
  have hmask : ∃ m : BitVec 3, r.mask = m ++ 0#8 := by
    have hall : ∀ r ∈ opcodeTable, ∃ m : BitVec 3, r.mask = m ++ 0#8 := by decide
    exact hall r hr
  obtain ⟨m, hm⟩ := hmask
  rw [OpcodeRow.hits, OpcodeRow.hits, hm, word_and_append, word_and_append, BitVec.and_zero, BitVec.and_zero]

/-- Which command a word decodes to does not depend on its operand field. -/
theorem mnemonic_decode_append (h : BitVec 3) (d : Byte) :
    (decode (h ++ d)).mnemonic = (decode (h ++ 0#8)).mnemonic := by
  simp only [decode_append, apply_ite Instr.mnemonic]
  rfl

/-- Settles O1: both sides depend on the three command bits alone, which leaves eight words. -/
theorem everyWordHitsExactlyItsRow : Obligations.EveryWordHitsExactlyItsRow := by
  intro w
  obtain ⟨h, d, rfl⟩ := word_eq_append w
  have height : ∀ h : BitVec 3, ∃ r ∈ opcodeTable, r.hits (h ++ 0#8) = true ∧
      r.mnemonic = (decode (h ++ 0#8)).mnemonic ∧ ∀ r' ∈ opcodeTable, r'.hits (h ++ 0#8) = true → r' = r := by
    decide
  obtain ⟨r, hr, hhits, hname, hunique⟩ := height h
  refine ⟨r, hr, (hits_append h d r hr).trans hhits, hname.trans (mnemonic_decode_append h d).symm, ?_⟩
  exact fun r' hr' hhits' => hunique r' hr' ((hits_append h d r' hr').symm.trans hhits')

/-- Settles O2: the word's number is its command bits' number above its operand's. -/
theorem wordBitsGiveCommandAndOperand : Obligations.WordBitsGiveCommandAndOperand := by
  intro w
  obtain ⟨h, d, rfl⟩ := word_eq_append w
  have hnum := toNat_append_byte h d
  have hd := d.isLt
  have hoperand : BitVec.ofNat 8 (h ++ d).toNat = d := by
    apply BitVec.eq_of_toNat_eq
    rw [hnum, BitVec.toNat_ofNat]
    omega
  have hle : ∀ k, k * 0x100 ≤ (h ++ d).toNat ↔ k ≤ h.toNat := fun k => by omega
  rw [decode_append, hoperand]
  simp only [← hle]

/-- The mask of a command without operand keeps the command bits (30 R64). -/
theorem word_and_command (h : BitVec 3) (d : Byte) : ((h ++ d : CmdWord) &&& 0x700) = h ++ 0#8 := by
  have hand := word_and_append h (BitVec.allOnes 3) d 0#8
  rwa [BitVec.and_allOnes, BitVec.and_zero] at hand

/-- The mask of a command with operand keeps the whole word. -/
theorem word_and_all (h : BitVec 3) (d : Byte) : ((h ++ d : CmdWord) &&& 0x7FF) = h ++ d :=
  BitVec.and_allOnes

/-- The mask of RESET keeps bit 10 alone (30 R64). -/
theorem word_and_reset {h : BitVec 3} (hrst : 4 ≤ h.toNat) (d : Byte) :
    ((h ++ d : CmdWord) &&& 0x400) = 0b100#3 ++ 0#8 := by
  have hbit : h &&& 0b100#3 = 0b100#3 := by revert h; decide
  have hand := word_and_append h 0b100#3 d 0#8
  rwa [hbit, BitVec.and_zero] at hand

/-- Settles O4: the encoder's word of each row is the word under the row's mask. -/
theorem encodeOfDecodeClearsIgnoredBits : Obligations.EncodeOfDecodeClearsIgnoredBits := by
  intro w
  obtain ⟨h, d, rfl⟩ := word_eq_append w
  by_cases hrst : 4 ≤ h.toNat
  · rw [decode_append, if_pos hrst, if_pos rfl, word_and_reset hrst]
    rfl
  · have hrow : h = 0b000#3 ∨ h = 0b001#3 ∨ h = 0b010#3 ∨ h = 0b011#3 := by revert h; decide
    obtain rfl | rfl | rfl | rfl := hrow
    · rw [show decode (0b000#3 ++ d) = .nop from decode_append _ d]
      exact (word_and_command _ d).symm
    · rw [show decode (0b001#3 ++ d) = .push d from decode_append _ d]
      exact (word_and_all _ d).symm
    · rw [show decode (0b010#3 ++ d) = .pop from decode_append _ d]
      exact (word_and_command _ d).symm
    · rw [show decode (0b011#3 ++ d) = .pushpop d from decode_append _ d]
      exact (word_and_all _ d).symm

/-- Settles O5: eight fixed words. -/
theorem wordsOfTheSpecDecode : Obligations.WordsOfTheSpecDecode := by
  unfold Obligations.WordsOfTheSpecDecode
  decide

/-- A bit of a number below 2^(i+1) is 1 where the number reaches 2^i. -/
theorem getLsbD_eq_decide {n : Nat} (w : BitVec n) (i : Nat) :
    w.getLsbD i = decide (2 ^ i ≤ w.toNat % 2 ^ (i + 1)) := by
  rw [BitVec.getLsbD, Nat.testBit_eq_decide_div_mod_eq, decide_eq_decide, pow_succ, Nat.mod_mul]
  have hlt := Nat.mod_lt w.toNat (Nat.two_pow_pos i)
  rcases Nat.mod_two_eq_zero_or_one (w.toNat / 2 ^ i) with h | h <;> rw [h] <;> omega

/-- The bits of a LINE word, field by field (30 R68). -/
theorem encodeLine_getLsbD (l : LineIn) (i : Nat) : (encodeLine l).getLsbD i =
    if i < 8 then l.rxData.getLsbD i else if i = 8 then l.rxReady else decide (i = 9) && l.txReady := by
  rw [encodeLine, BitVec.getLsbD_append, BitVec.getLsbD_append, BitVec.getLsbD_ofBool, BitVec.getLsbD_ofBool]
  split
  · rfl
  · split
    · next h h' => rw [if_pos (by omega), decide_eq_true (by omega), Bool.true_and]
    · next h h' => rw [if_neg (by omega), decide_eq_decide.2 (show i - 8 - 1 = 0 ↔ i = 9 by omega)]

/-- Settles O6: a LINE word is appended from its fields, and its bits are those of its number. -/
theorem lineWordIsItsThreeFields : Obligations.LineWordIsItsThreeFields := by
  refine ⟨fun l => ?_, fun w => ?_, fun w => ⟨?_, ?_, ?_⟩⟩
  · have hdata : (encodeLine l).extractLsb' 0 8 = l.rxData := BitVec.extractLsb'_append_eq_right
    rw [decodeLine, encodeLine_getLsbD, encodeLine_getLsbD, hdata]
    rfl
  · refine BitVec.eq_of_getLsbD_eq fun i hi => ?_
    rw [encodeLine_getLsbD]
    split
    · next h => simp [decodeLine, h]
    · split
      · next h => rw [h]; rfl
      · next h =>
        obtain rfl : i = 9 := by omega
        rfl
  · have hbit := getLsbD_eq_decide w 9
    rwa [Nat.mod_eq_of_lt w.isLt] at hbit
  · exact getLsbD_eq_decide w 8
  · apply BitVec.eq_of_toNat_eq
    simp [decodeLine]

/-! ### The assembler's text (30 section 5) -/

theorem hexVal_hexDigit : ∀ n < 16, hexVal (hexDigit n) = some n := by decide

/-- Two hexadecimal digits after 0x are an immediate. -/
theorem readImm_hex {a b : Char} {x y : Nat} (ha : hexVal a = some x) (hb : hexVal b = some y) (rest : List Char) :
    readImm ('0' :: 'x' :: a :: b :: rest) = .ok (.num (16 * x + y), rest) := by
  simp only [readImm, ha, hb]

/-- The printed byte reads back as its number. -/
theorem readImm_printByte (d : Byte) : readImm (printByte d) = .ok (.num d.toNat, []) := by
  have hd := d.isLt
  rw [printByte, readImm_hex (hexVal_hexDigit _ (by omega)) (hexVal_hexDigit _ (by omega)), Nat.div_add_mod]

/-- A printed PUSH reads as the PUSH of its immediate. -/
theorem readLine_push {i : Imm} (cs : List Char) (h : readImm ('0' :: cs) = .ok (i, [])) :
    readLine (['P', 'U', 'S', 'H', ' ', '0'] ++ cs) = .ok (.push i) := by
  have hword : readWord (['P', 'U', 'S', 'H', ' ', '0'] ++ cs) = (['P', 'U', 'S', 'H'], '0' :: cs) := rfl
  simp only [readLine, hword, h]
  rfl

/-- A printed PUSHPOP reads as the PUSHPOP of its immediate. -/
theorem readLine_pushpop {i : Imm} (cs : List Char) (h : readImm ('0' :: cs) = .ok (i, [])) :
    readLine (['P', 'U', 'S', 'H', 'P', 'O', 'P', ' ', '0'] ++ cs) = .ok (.pushpop i) := by
  have hword : readWord (['P', 'U', 'S', 'H', 'P', 'O', 'P', ' ', '0'] ++ cs) =
      (['P', 'U', 'S', 'H', 'P', 'O', 'P'], '0' :: cs) := rfl
  simp only [readLine, hword, h]
  rfl

/-- Settles O7: the three commands without operand are fixed texts, and a printed byte reads back as its number. -/
theorem printedCommandReadsBack : Obligations.PrintedCommandReadsBack := by
  intro i
  cases i with
  | nop => exact ⟨.nop, rfl, rfl, rfl⟩
  | push d =>
    exact ⟨_, readLine_push _ (readImm_printByte d), decide_eq_true d.isLt, by simp [expand, immByte]⟩
  | pop => exact ⟨.pop, rfl, rfl, rfl⟩
  | pushpop d =>
    exact ⟨_, readLine_pushpop _ (readImm_printByte d), decide_eq_true d.isLt, by simp [expand, immByte]⟩
  | reset => exact ⟨.reset, rfl, rfl, rfl⟩

/-- The word of PUSH by its number. -/
theorem encode_push_ofNat {n : Nat} (h : n < 256) :
    encode (.push (BitVec.ofNat 8 n)) = BitVec.ofNat 11 (0x100 + n) := by
  apply BitVec.eq_of_toNat_eq
  rw [encode, toNat_append_byte, BitVec.toNat_ofNat, BitVec.toNat_ofNat, BitVec.toNat_ofNat]
  omega

/-- What an assembled statement is: its immediates in range, its commands encoded. -/
theorem assemble_eq_ok_iff {t : Stmt} {ws : List CmdWord} :
    assemble t = .ok ws ↔ t.wf = true ∧ (expand t).map encode = ws := by
  rw [assemble]
  split <;> simp [*]

/-- Settles O8: the encoder on the expansion of each pseudo-instruction. -/
theorem pseudoInstructionsExpand : Obligations.PseudoInstructionsExpand := by
  refine ⟨fun s hs => assemble_eq_ok_iff.2 ⟨hs, ?_⟩, fun n => assemble_eq_ok_iff.2 ⟨rfl, ?_⟩,
    fun n => assemble_eq_ok_iff.2 ⟨rfl, ?_⟩, fun n t ws ht => ?_⟩
  · rw [expand, List.map_map]
    refine List.map_congr_left fun c hc => encode_push_ofNat ?_
    have hascii := List.all_eq_true.1 hs c hc
    simp only [asciiOk, decide_eq_true_eq] at hascii
    omega
  · rw [expand, List.map_replicate]; rfl
  · rw [expand, List.map_replicate]; rfl
  · obtain ⟨hwf, rfl⟩ := assemble_eq_ok_iff.1 ht
    exact assemble_eq_ok_iff.2 ⟨hwf, by rw [expand, List.map_flatten, List.map_replicate]⟩

end Sys2Proof.Machine
